-- ==== Sys2Proof/Word.lean ====
section
/-! DEFINITION. The Value cell of `spec/10_state.md` R20: a sign bit and an 8-bit magnitude, the content of every
memory cell and of ACC, X and IP. The operations on it stand in `Sys2Proof/Machine/Value.lean`. -/

namespace Sys2Proof

/-- The 9-bit signed-magnitude Value `(s, m)` of R20. All 512 pairs are representable, `+0` and `-0` are distinct,
and the invariant "magnitude always in [0,255]" is the type of `m`. -/
structure Value where
  /-- The sign bit, `true` when negative. -/
  s : Bool
  /-- The magnitude, 0..255. -/
  m : BitVec 8
deriving DecidableEq, Repr, Inhabited

/-- The spec's `+m` (R7). -/
abbrev Value.plus (m : BitVec 8) : Value := ⟨false, m⟩

/-- The spec's `-m` (R7). -/
abbrev Value.minus (m : BitVec 8) : Value := ⟨true, m⟩

end Sys2Proof
end

