-- ==== Sys2Proof/Config.lean ====
section
/-! DEFINITION. What the spec leaves open: the parameter `ALU_NEG` as a type, the free values of a faulted step, and
the display parameters. A free value is a constant with no body, so that no proof can see what it is. The value of
`ALU_NEG` on this hardware stands in `Sys2Proof/Machine/Flags.lean`. -/

namespace Sys2Proof.Config

/-- `ALU_NEG`, how the ALU reads a negative signed total (`spec/00_scope.md` R6, `spec/41_accumulator.md` R101). -/
inductive AluNeg where
  /-- The "unsigned total" is the magnitude of the signed sum: this hardware (D5). -/
  | absTotal
  /-- The signed sum is built by `mk`. -/
  | signedResult
  /-- The model gives no meaning to the step. -/
  | fault
deriving DecidableEq, Repr

/-- IP after the n-th fault: any value (`spec/60_exceptions.md` R144, X2; log entry 3). -/
opaque ipAfterFault : Nat → Value

/-- Z after the n-th fault: any value (R144, X2; log entry 3). -/
opaque zAfterFault : Nat → Bool

/-- OVF after the n-th fault: any value (R144, X2; log entry 3). -/
opaque ovfAfterFault : Nat → Bool

/-- `DUMP_COL3_SEP`, the separator before the third column of a dump line (D20; log entry 13). -/
opaque dumpCol3Sep : List Char

/-- `DUMP_PLACEHOLDER`, shown where a cell is not printable (D20; log entry 13). -/
opaque dumpPlaceholder : Char

/-- `FMT_OCTAL`, the octal rendering of a magnitude (`spec/10_state.md` R28, D20; log entry 13). -/
opaque fmtOctal : BitVec 8 → List Char

/-- `FMT_DECIMAL`, the decimal rendering of a magnitude (R28, D20; log entry 13). -/
opaque fmtDecimal : BitVec 8 → List Char

end Sys2Proof.Config
end

