-- ==== Sys2Proof/Machine/State.lean ====
section
/-! DEFINITION. The state of the core (`spec/10_state.md` R29, R36), its reset value (R38), the outcome reasons, and
one named update per register. -/

namespace Sys2Proof.Machine

/-- The three error kinds of `spec/60_exceptions.md` R140, as the FAULT register records them. Taking one is a next
state (R144), not the end of the model's run. -/
inductive Cause where
  /-- `RangeError` (R141), code 1. -/
  | range
  /-- `IndexCarryError` (R142), code 2. -/
  | indexCarry
  /-- `UnrecognizedOpcode` (R143), code 3. -/
  | unrecognizedOpcode
deriving DecidableEq, Repr

/-- The memory: the cells that differ from `+0`, by strictly rising address (R39: a cell never written reads `+0`).
A cell is 9 bits, so an entry is an address and a Value (log entry 1). -/
abbrev Memory := List (Nat × Value)

/-- Every piece of state the spec gives the machine (R29, R36, R37, R41), and one counter of the model's own. -/
structure State where
  /-- ACC, the accumulator (R30). -/
  acc : Value
  /-- X, the index register (R31). -/
  x : Value
  /-- IP, the instruction pointer (R32). -/
  ip : Value
  /-- RUN, the run flag (R33). -/
  run : Bool
  /-- XZ, the index-zero flag (R34). -/
  xz : Bool
  /-- Z, the ALU zero flag (R35). -/
  z : Bool
  /-- OVF, the ALU overflow flag (R35). -/
  ovf : Bool
  /-- FAULT: none is `NONE`, code 0 (R36). -/
  fault : Option Cause
  /-- M[0] .. M[255] (`spec/20_memory.md` R50). -/
  mem : Memory
  /-- MODEL'S OWN: how many faults have drawn free values so far (log entry 3). -/
  draws : Nat
deriving DecidableEq, Repr

/-- The reset values of R38; `draws` starts at 0 (DESIGN CHOICE, log entry 3). The registers whose reset value the
source does not give are the spec's decision D6 (log entry 6). -/
def State.reset : State where
  acc := .plus 0
  x := .plus 0
  ip := .plus 0
  run := false
  xz := false
  z := false
  ovf := false
  fault := none
  mem := []
  draws := 0

/-- The reasons a step ends the model's run as a fault. There is none: each of the spec's three errors is taken as the
spec describes it, by a next state whose FAULT register holds the cause (`spec/60_exceptions.md` R144), and no access
of this core can fail (`spec/20_memory.md` R52, R53). Log entry 2. -/
inductive Fault
deriving DecidableEq, Repr

/-- The reasons a step is refused. -/
inductive Refusal where
  /-- Raised by an arm of `exec` whose instruction has no meaning yet; no arm is. Safe. -/
  | notModelled (mnemonic : String)
  /-- Raised by the ALU on a negative total when the parameter `ALU_NEG` is `Fault` (`spec/41_accumulator.md` R101:
  "model refusal: the model gives no meaning to this step"). This hardware takes `AbsTotal`, so no step raises it.
  Safe. -/
  | negativeTotal
deriving DecidableEq, Repr

/-- What a step of this machine answers. -/
abbrev Out := Host.Outcome State Fault Refusal

/-- ACC <- v. -/
def State.setAcc (s : State) (v : Value) : State := { s with acc := v }
/-- X <- v. -/
def State.setX (s : State) (v : Value) : State := { s with x := v }
/-- IP <- v. -/
def State.setIp (s : State) (v : Value) : State := { s with ip := v }
/-- RUN <- b. -/
def State.setRun (s : State) (b : Bool) : State := { s with run := b }
/-- XZ <- b. -/
def State.setXz (s : State) (b : Bool) : State := { s with xz := b }
/-- Z and OVF, written together by every ALU add (R35). -/
def State.setAlu (s : State) (z ovf : Bool) : State := { s with z := z, ovf := ovf }
/-- FAULT <- c. -/
def State.setFault (s : State) (c : Option Cause) : State := { s with fault := c }
/-- The memory array replaced. -/
def State.setMem (s : State) (m : Memory) : State := { s with mem := m }

end Sys2Proof.Machine
end

