-- ==== Sys2Proof/Machine/Value.lean ====
section
/-! DEFINITION. The operations on Values the core performs (`spec/10_state.md` R21 to R26) and the renderings of R28. -/

namespace Sys2Proof.Machine

/-- `sv(v)`, the signed integer of a Value (R21). -/
def sv (v : Value) : Int := if v.s then -(v.m.toNat : Int) else (v.m.toNat : Int)

/-- `mk(n)`, the Value built from an integer, `RangeError` outside -255..255 (R22). -/
def mkValue (n : Int) : Except Cause Value :=
  if n < 0 then
    if -n > 255 then .error .range else .ok ⟨true, BitVec.ofNat 8 (-n).toNat⟩
  else
    if n > 255 then .error .range else .ok ⟨false, BitVec.ofNat 8 n.toNat⟩

/-- `Inc(v, d)`, increment by a signed delta (R23). -/
def inc (v : Value) (d : Int) : Except Cause Value := mkValue (sv v + d)

/-- `neg(v)`, the sign flipped (R24); `neg(+0) = -0`. -/
def neg (v : Value) : Value := ⟨!v.s, v.m⟩

/-- Equality of Values: sign and magnitude both match (R25). -/
def sameValue (v w : Value) : Bool := v.s == w.s && v.m == w.m

/-- `is_zero(v)`: equal to `+0`, so false of `-0` (R25). -/
def isZero (v : Value) : Bool := sameValue v (.plus 0)

/-- `VAdd(a, b)`, the signed add with carry of the indexing engine (R26). -/
def vAdd (a b : Value) : Except Cause (Value × Bool) :=
  let t := sv a + sv b
  if t > 255 then (mkValue (t - 256)).map (fun r => (r, true))
  else if t < -255 then (mkValue (t + 256)).map (fun r => (r, true))
  else (mkValue t).map (fun r => (r, false))

/-- One lower-case hex digit, for 0..15. -/
def hexDigit (n : Nat) : Char := if n < 10 then Char.ofNat (48 + n) else Char.ofNat (87 + n)

/-- `hex()`: `0x` and two lower-case digits of the magnitude; the sign is not shown (R28,
`spec/60_exceptions.md` R153). A text is a list of characters. -/
def hex (v : Value) : List Char := ['0', 'x', hexDigit (v.m.toNat / 16), hexDigit (v.m.toNat % 16)]

/-- `octal()`: of the magnitude only, in an open format (R28, D20). -/
def octal (v : Value) : List Char := Config.fmtOctal v.m

/-- `decimal()`: of the magnitude only, in an open format (R28, D20). -/
def decimal (v : Value) : List Char := Config.fmtDecimal v.m

/-- `is_printable(v)`: the magnitude is in [0x20, 0x7e] (R28). -/
def isPrintable (v : Value) : Bool := decide (0x20 ≤ v.m.toNat) && decide (v.m.toNat ≤ 0x7e)

end Sys2Proof.Machine
end

