-- ==== Sys2Proof/Machine/Ops.lean ====
section
/-! DEFINITION. The named operations over memory and registers: reading and writing one cell, the run state, the
gate of a step, taking a fault, and the fetch. -/

namespace Sys2Proof.Machine

/-- The number of memory cells, `MEM_SIZE` (`spec/20_memory.md` R51; the spec's decision D1, log entry 15). -/
def memSize : Nat := 256

/-- What a cell that is not listed reads as: `+0` (`spec/10_state.md` R39). -/
def unsetCell : Value := .plus 0

/-- The cell at address `k`. -/
def Memory.read : Memory → Nat → Value
  | [], _ => unsetCell
  | (a, v) :: rest, k => if a = k then v else Memory.read rest k

/-- The memory with cell `k` holding `v`, in canonical form. -/
def Memory.write : Memory → Nat → Value → Memory
  | [], k, v => if v = unsetCell then [] else [(k, v)]
  | (a, w) :: rest, k, v =>
    if k < a then (if v = unsetCell then (a, w) :: rest else (k, v) :: (a, w) :: rest)
    else if k = a then (if v = unsetCell then rest else (k, v) :: rest)
    else (a, w) :: Memory.write rest k v

/-- Every address listed is at least `lo` and below `MEM_SIZE`, addresses rise strictly, and no cell listed holds what
an unlisted one reads as. -/
def Memory.wfFrom : Nat → Memory → Bool
  | _, [] => true
  | lo, (a, v) :: rest =>
    decide (lo ≤ a) && decide (a < memSize) && decide (v ≠ unsetCell) && Memory.wfFrom (a + 1) rest

/-- The canonical form of a memory: equal memories are equal lists. -/
def Memory.wf (m : Memory) : Bool := Memory.wfFrom 0 m

/-- `MemRead(a, 1)`: the cell `a.m`, the address's sign ignored (`spec/20_memory.md` R52; the sign is the spec's
decision D2, log entry 8). -/
def memRead (m : Memory) (a : Value) : Value := m.read a.m.toNat

/-- `MemWrite(a, 1, v)`: all 9 bits of `v` into the cell `a.m` (R53). -/
def memWrite (m : Memory) (a v : Value) : Memory := m.write a.m.toNat v

/-- The run states of `spec/10_state.md` R42. -/
inductive RunState where
  | running | halted | faulted
deriving DecidableEq, Repr

/-- The run state as a function of RUN and FAULT (R42). -/
def runState (s : State) : RunState :=
  match s.fault with
  | some _ => .faulted
  | none => if s.run then .running else .halted

/-- The 2-bit code of the FAULT register (R36, R140; the codes are the spec's decision D10, log entry 16). -/
def faultCode : Option Cause → BitVec 2
  | none => 0
  | some .range => 1
  | some .indexCarry => 2
  | some .unrecognizedOpcode => 3

/-- The gate of a step: "runs only when RUN = 1 and FAULT = NONE" (`spec/30_encoding.md` R78, R174). -/
def canStep (s : State) : Bool := s.run && s.fault.isNone

/-- What a step does while HALTED or FAULTED: nothing (`spec/70_reset_and_hazards.md` R174; D8, log entry 7). -/
def idle (s : State) : Out := .next s

/-- Taking a fault (`spec/60_exceptions.md` R144): FAULT holds the cause; memory, ACC, X, XZ and RUN keep the values
they have (no instruction writes one of them before its last check); IP, Z and OVF become free values (log entry 3).
There is no vector, handler or saved state (R146) and so no return (R147): only `H_RESET` leaves FAULTED. -/
def takeFault (c : Cause) (s : State) : State :=
  { s with fault := some c, ip := Config.ipAfterFault s.draws, z := Config.zAfterFault s.draws,
           ovf := Config.ovfAfterFault s.draws, draws := s.draws + 1 }

/-- `raise E`: the step ends here with the fault taken (R144). -/
def raise (c : Cause) (s : State) : Out := .next (takeFault c s)

/-- Go on with the result of an operation that can raise, or take its fault. -/
def attempt {α : Type} (r : Except Cause α) (s : State) (k : α → Out) : Out :=
  match r with
  | .ok v => k v
  | .error c => raise c s

/-- The two cells of an instruction and the IP behind it. -/
structure Fetched where
  op : Value
  opd : Value
  ip : Value
deriving DecidableEq, Repr

/-- Steps 1 and 2 of the fetch-execute cycle (`spec/30_encoding.md` R78): the opcode cell at IP, IP incremented, the
operand cell at the new IP, IP incremented; `RangeError` from either increment. -/
def fetch (s : State) : Except Cause Fetched :=
  match inc s.ip 1 with
  | .error c => .error c
  | .ok ip1 =>
    match inc ip1 1 with
    | .error c => .error c
    | .ok ip2 => .ok ⟨memRead s.mem s.ip, memRead s.mem ip1, ip2⟩

/-- `Skip()`: IP <- Inc(IP, +2), `RangeError` past 255 (`spec/40_control.md` R94; one +2 by D16, log entry 17). -/
def skip (s : State) : Out := attempt (inc s.ip 2) s (fun ip => .next (s.setIp ip))

/-- Where the next fetch can find an instruction: IP itself, or `+0` where the fetch at IP would fault before the
dispatch (log entry 11). -/
def fetchPlace (ip : Value) : Value := if sv ip ≤ 253 then ip else .plus 0

/-- The cell after the opcode cell, in the order of the fetch. -/
def operandPlace (ip : Value) : Value :=
  match inc ip 1 with
  | .ok ip1 => ip1
  | .error _ => ip

/-- `s` made ready to fetch the two cells: they are stored where the next step fetches, RUN is 1 and FAULT is none.
It stands for the host's `H_LOAD`, `H_SET_IP` and `H_START` (`spec/70_reset_and_hazards.md` R171; log entry 11). -/
def placeInstruction (s : State) (op opd : Value) : State :=
  let p := fetchPlace s.ip
  { s with ip := p, run := true, fault := none,
           mem := memWrite (memWrite s.mem p op) (operandPlace p) opd }

end Sys2Proof.Machine
end

