-- ==== Sys2Proof/Machine/Operands.lean ====
section
/-! DEFINITION. The operand forms of `spec/30_encoding.md` R71: direct access, and indexed access through the indexed
address offset engine of `spec/20_memory.md` R59 and R60. Form `NONE` reads nothing. -/

namespace Sys2Proof.Machine

/-- `Resolve(a, i)`: `a` itself when the index is absent; else the signed-magnitude sum, `IndexCarryError` on carry,
never a wrap (R59). -/
def resolve (a : Value) : Option Value → Except Cause Value
  | none => .ok a
  | some i =>
    match vAdd a i with
    | .error c => .error c
    | .ok (r, carry) => if carry then .error .indexCarry else .ok r

/-- `IdxRead(a, i)`: resolves, then reads (R60). -/
def idxRead (m : Memory) (a : Value) (i : Option Value) : Except Cause Value :=
  (resolve a i).map (fun ea => memRead m ea)

/-- `IdxWrite(a, i, v)`: resolves, then writes (R60). -/
def idxWrite (m : Memory) (a : Value) (i : Option Value) (v : Value) : Except Cause Memory :=
  (resolve a i).map (fun ea => memWrite m ea v)

/-- The DIRECT operand as a source: the cell at the operand cell's Value, unchanged (R71, R74). -/
def directRead (s : State) (opd : Value) : Value := memRead s.mem opd

/-- The DIRECT operand as a destination: the state with `v` stored at the operand cell's Value (R71, R74). -/
def directWrite (s : State) (opd v : Value) : State := s.setMem (memWrite s.mem opd v)

/-- The INDEXED operand as a source: base `opd`, index X (R71, R59). -/
def indexedRead (s : State) (opd : Value) : Except Cause Value := idxRead s.mem opd (some s.x)

/-- The INDEXED operand as a destination: the memory with `v` stored at base `opd` plus X (R71, R59). -/
def indexedWrite (s : State) (opd v : Value) : Except Cause Memory := idxWrite s.mem opd (some s.x) v

end Sys2Proof.Machine
end

