-- ==== Sys2Proof/Machine/Flags.lean ====
section
/-! DEFINITION. The ALU and every flag computation (`spec/41_accumulator.md` R100 to R102, `spec/10_state.md` R34,
R35), with the parameter `ALU_NEG` as an argument (R101) and its value on this hardware. -/

namespace Sys2Proof.Machine

/-- `ALU_NEG` on this hardware: `AbsTotal` (`spec/00_scope.md` R6; the spec's decision D5, log entry 5). -/
def aluNeg : Config.AluNeg := .absTotal

/-- What an ALU add answers. -/
inductive AluOut where
  /-- The result with the flags Z and OVF. -/
  | done (r : Value) (z ovf : Bool)
  /-- `RangeError`, only under `SignedResult` (R101). -/
  | raised (c : Cause)
  /-- No meaning, only under `ALU_NEG = Fault` (R101). -/
  | noMeaning
deriving DecidableEq, Repr

/-- OVF of an unsigned total (R100). -/
def aluOverflow (u : Nat) : Bool := decide (u > 255)

/-- The result magnitude of an unsigned total, 0..510 (R100: "r <- u - 256" above 255). -/
def aluMagnitude (u : Nat) : Nat := if u > 255 then u - 256 else u

/-- Z of a result magnitude: "zero=true iff the final magnitude is 0" (R100). -/
def aluZero (r : Nat) : Bool := r == 0

/-- The unsigned result of a total with its flags (R100). -/
def aluUnsigned (u : Nat) : AluOut :=
  .done ⟨false, BitVec.ofNat 8 (aluMagnitude u)⟩ (aluZero (aluMagnitude u)) (aluOverflow u)

/-- The signed result of a negative total under `SignedResult`: OVF and Z 0, `mk(t)` (R101). -/
def aluSigned (t : Int) : AluOut :=
  match mkValue t with
  | .ok r => .done r false false
  | .error c => .raised c

/-- `AluAdd(a, b)` under a value of `ALU_NEG` (R100, R101). -/
def aluAddWith (mode : Config.AluNeg) (a b : Value) : AluOut :=
  let t := sv a + sv b
  if t < 0 then
    match mode with
    | .absTotal => aluUnsigned t.natAbs
    | .signedResult => aluSigned t
    | .fault => .noMeaning
  else aluUnsigned t.natAbs

/-- `AluSub(a, b)` under a value of `ALU_NEG`: the copy of `b` negated, then added (R102). -/
def aluSubWith (mode : Config.AluNeg) (a b : Value) : AluOut := aluAddWith mode a (neg b)

/-- `AluAdd(a, b)` of this hardware. -/
def aluAdd (a b : Value) : AluOut := aluAddWith aluNeg a b

/-- `AluSub(a, b)` of this hardware. -/
def aluSub (a b : Value) : AluOut := aluSubWith aluNeg a b

/-- ACC <- the ALU's result, with Z and OVF written; or the ALU's fault, taken; or its refusal (R100, R101). -/
def aluToAcc (r : AluOut) (s : State) : Out :=
  match r with
  | .done v z ovf => .next ((s.setAcc v).setAlu z ovf)
  | .raised c => raise c s
  | .noMeaning => .refused .negativeTotal

/-- XZ of a new X: `is_zero(X)` (`spec/10_state.md` R34). -/
def indexZero (x : Value) : Bool := isZero x

end Sys2Proof.Machine
end

