-- ==== Sys2Proof/Machine/Accumulator.lean ====
section
/-! DEFINITION. The accumulator instructions of `spec/41_accumulator.md`. ADD and SUB are given for every value of
`ALU_NEG` first (R101), then for this hardware. -/

namespace Sys2Proof.Machine

/-- ADD under a value of `ALU_NEG`. -/
def execAddWith (mode : Config.AluNeg) (addr : Value) (s : State) : Out :=
  aluToAcc (aluAddWith mode s.acc (directRead s addr)) s

/-- ADD (R103): ACC <- AluAdd(ACC, MemRead(opd, 1)). -/
def execAdd (addr : Value) (s : State) : Out := execAddWith aluNeg addr s

/-- LDA (R104): ACC <- MemRead(opd, 1); no flag is written. -/
def execLda (addr : Value) (s : State) : Out := .next (s.setAcc (directRead s addr))

/-- STA (R105): MemWrite(opd, 1, ACC). -/
def execSta (addr : Value) (s : State) : Out := .next (directWrite s addr s.acc)

/-- SUB under a value of `ALU_NEG`. -/
def execSubWith (mode : Config.AluNeg) (addr : Value) (s : State) : Out :=
  aluToAcc (aluSubWith mode s.acc (directRead s addr)) s

/-- SUB (R106): ACC <- AluSub(ACC, MemRead(opd, 1)); the cell is unchanged. -/
def execSub (addr : Value) (s : State) : Out := execSubWith aluNeg addr s

end Sys2Proof.Machine
end

