-- ==== Sys2Proof/Machine/Control.lean ====
section
/-! DEFINITION. The control instructions of `spec/40_control.md`. IP in `s` is the IP after the fetch. -/

namespace Sys2Proof.Machine

/-- HALT (R90): RUN <- 0. -/
def execHalt (_ignored : Value) (s : State) : Out := .next (s.setRun false)

/-- JMP (R91): IP <- opd, the whole Value, sign included (D3, log entry 9). -/
def execJmp (target : Value) (s : State) : Out := .next (s.setIp target)

/-- SZA (R92): if Z = 1 then Skip(). -/
def execSza (_ignored : Value) (s : State) : Out := if s.z then skip s else .next s

/-- SZX (R93): if XZ = 1 then Skip(). -/
def execSzx (_ignored : Value) (s : State) : Out := if s.xz then skip s else .next s

end Sys2Proof.Machine
end

