-- ==== Sys2Proof/Machine/IndexRegister.lean ====
section
/-! DEFINITION. The index register instructions of `spec/42_index_register.md`. -/

namespace Sys2Proof.Machine

/-- LDX (R120): X <- MemRead(opd, 1); XZ is not written. -/
def execLdx (addr : Value) (s : State) : Out := .next (s.setX (directRead s addr))

/-- STX (R121): MemWrite(opd, 1, X). -/
def execStx (addr : Value) (s : State) : Out := .next (directWrite s addr s.x)

/-- DCX (R122): X <- Inc(X, -1), `RangeError` at -255; XZ <- is_zero(X). -/
def execDcx (_ignored : Value) (s : State) : Out :=
  attempt (inc s.x (-1)) s (fun x => .next ((s.setX x).setXz (indexZero x)))

end Sys2Proof.Machine
end

