-- ==== Sys2Proof/Machine/Indexed.lean ====
section
/-! DEFINITION. The indexed instructions of `spec/43_indexed.md`: the address is resolved first, then the memory is
accessed, then (ADDX) the ALU runs (R133). -/

namespace Sys2Proof.Machine

/-- ADDX under a value of `ALU_NEG`. -/
def execAddxWith (mode : Config.AluNeg) (base : Value) (s : State) : Out :=
  attempt (indexedRead s base) s (fun b => aluToAcc (aluAddWith mode s.acc b) s)

/-- ADDX (R130): ACC <- AluAdd(ACC, MemRead(Resolve(opd, X), 1)), `IndexCarryError` on carry. -/
def execAddx (base : Value) (s : State) : Out := execAddxWith aluNeg base s

/-- LDAX (R131): ACC <- MemRead(Resolve(opd, X), 1), `IndexCarryError` on carry. -/
def execLdax (base : Value) (s : State) : Out := attempt (indexedRead s base) s (fun v => .next (s.setAcc v))

/-- STAX (R132): MemWrite(Resolve(opd, X), 1, ACC), `IndexCarryError` on carry. -/
def execStax (base : Value) (s : State) : Out :=
  attempt (indexedWrite s base s.acc) s (fun m => .next (s.setMem m))

end Sys2Proof.Machine
end

