-- ==== Sys2Proof/Syntax.lean ====
section
/-! DEFINITION. The instruction set as syntax: the 14 mnemonics of `spec/30_encoding.md` R75, the operand forms of
R71, and `Instr`, one constructor per row of `spec/opcode_table.json`. -/

namespace Sys2Proof

/-- The 14 mnemonics of R75. -/
inductive Mnemonic where
  | halt | add | lda | sta | jmp | sza | sub | ldx | stx | szx | dcx | addx | ldax | stax
deriving DecidableEq, Repr

/-- The operand forms of R71. -/
inductive Form where
  /-- The operand is the address of the cell accessed, or the jump target. -/
  | direct
  /-- The operand cell is fetched and not used. -/
  | none
  /-- The operand is the base address of `Resolve(operand, X)`. -/
  | indexed
deriving DecidableEq, Repr

/-- An instruction with its operand cell, unchanged and sign included (R74). A form-`none` instruction keeps the
ignored cell too, so that no bit of an encoding is dropped (log entry 14). -/
inductive Instr where
  | halt (ignored : Value)
  | add (addr : Value)
  | lda (addr : Value)
  | sta (addr : Value)
  | jmp (target : Value)
  | sza (ignored : Value)
  | sub (addr : Value)
  | ldx (addr : Value)
  | stx (addr : Value)
  | szx (ignored : Value)
  | dcx (ignored : Value)
  | addx (base : Value)
  | ldax (base : Value)
  | stax (base : Value)
deriving DecidableEq, Repr

/-- The mnemonic of an instruction. -/
def Instr.mnemonic : Instr → Mnemonic
  | .halt _ => .halt
  | .add _ => .add
  | .lda _ => .lda
  | .sta _ => .sta
  | .jmp _ => .jmp
  | .sza _ => .sza
  | .sub _ => .sub
  | .ldx _ => .ldx
  | .stx _ => .stx
  | .szx _ => .szx
  | .dcx _ => .dcx
  | .addx _ => .addx
  | .ldax _ => .ldax
  | .stax _ => .stax

/-- The operand cell of an instruction, used or ignored. -/
def Instr.operand : Instr → Value
  | .halt v => v
  | .add v => v
  | .lda v => v
  | .sta v => v
  | .jmp v => v
  | .sza v => v
  | .sub v => v
  | .ldx v => v
  | .stx v => v
  | .szx v => v
  | .dcx v => v
  | .addx v => v
  | .ldax v => v
  | .stax v => v

/-- The operand form of each mnemonic (R75). -/
def Mnemonic.form : Mnemonic → Form
  | .halt => .none
  | .add => .direct
  | .lda => .direct
  | .sta => .direct
  | .jmp => .direct
  | .sza => .none
  | .sub => .direct
  | .ldx => .direct
  | .stx => .direct
  | .szx => .none
  | .dcx => .none
  | .addx => .indexed
  | .ldax => .indexed
  | .stax => .indexed

end Sys2Proof
end

