-- ==== Sys2Proof/Machine/Dispatch.lean ====
section
/-! DEFINITION. The dispatch of `spec/30_encoding.md` R78 step 3: one arm per instruction. -/

namespace Sys2Proof.Machine

/-- `Execute_I(opd)` for each instruction of R75; IP in `s` is the IP after the fetch. -/
def exec (i : Instr) (s : State) : Host.Outcome State Fault Refusal :=
  match i with
  | .halt v => Sys2Proof.Machine.execHalt v s
  | .add v => Sys2Proof.Machine.execAdd v s
  | .lda v => Sys2Proof.Machine.execLda v s
  | .sta v => Sys2Proof.Machine.execSta v s
  | .jmp v => Sys2Proof.Machine.execJmp v s
  | .sza v => Sys2Proof.Machine.execSza v s
  | .sub v => Sys2Proof.Machine.execSub v s
  | .ldx v => Sys2Proof.Machine.execLdx v s
  | .stx v => Sys2Proof.Machine.execStx v s
  | .szx v => Sys2Proof.Machine.execSzx v s
  | .dcx v => Sys2Proof.Machine.execDcx v s
  | .addx v => Sys2Proof.Machine.execAddx v s
  | .ldax v => Sys2Proof.Machine.execLdax v s
  | .stax v => Sys2Proof.Machine.execStax v s

end Sys2Proof.Machine
end

