-- ==== Sys2Proof/WellFormed.lean ====
section
/-! DEFINITION. Which words are instructions, declared by the rows of `spec/opcode_table.json` (mask and match over
the packed 18-bit notation of `spec/30_encoding.md` R72), and the well-formedness of an instruction term. The decoder
of `Sys2Proof/Decode.lean` is written from R73 and R75, not from these rows; that the two agree is an obligation. -/

namespace Sys2Proof

/-- One row of the opcode table: a word `w` is the row's instruction when `w &&& mask = pattern`. -/
structure TableRow where
  mnemonic : Mnemonic
  mask : BitVec 18
  pattern : BitVec 18
deriving DecidableEq, Repr

/-- The 14 rows of `spec/opcode_table.json`, in the table's order. -/
def opcodeTable : List TableRow :=
  [⟨.halt, 0x3FE00, 0x00200⟩, ⟨.add, 0x3FE00, 0x04000⟩, ⟨.lda, 0x3FE00, 0x04200⟩, ⟨.sta, 0x3FE00, 0x04400⟩] ++
  [⟨.jmp, 0x3FE00, 0x04600⟩, ⟨.sza, 0x3FE00, 0x04800⟩, ⟨.sub, 0x3FE00, 0x04A00⟩, ⟨.ldx, 0x3FE00, 0x04C00⟩] ++
  [⟨.stx, 0x3FE00, 0x04E00⟩, ⟨.szx, 0x3FE00, 0x05000⟩, ⟨.dcx, 0x3FE00, 0x05200⟩, ⟨.addx, 0x3FE00, 0x08000⟩] ++
  [⟨.ldax, 0x3FE00, 0x08200⟩, ⟨.stax, 0x3FE00, 0x08400⟩]

/-- The packed word `w` matches the row (R72). -/
def TableRow.fits (r : TableRow) (w : BitVec 18) : Bool := w &&& r.mask == r.pattern

/-- `n` is a packed instruction word: 18 bits wide and matching some row (R72: "A W that matches no row is
illegal"). -/
def wellFormedWord (n : Nat) : Bool :=
  decide (n < 2 ^ 18) && opcodeTable.any (fun r => r.fits (BitVec.ofNat 18 n))

/-- `n` and `k` are the two cells of an instruction as plain numbers, `{s, m[7:0]}` each (R20, R70): both are cell
values and the opcode cell belongs to a row. -/
def wellFormedCells (n k : Nat) : Bool :=
  decide (n < 2 ^ 9) && decide (k < 2 ^ 9) && wellFormedWord (n * 2 ^ 9 + k)

/-- An instruction term is well formed when its operand cell is one of the 512 cell values. The type `Value` says so
already (R20) and no operand value is illegal (R76: "no operand cell value is illegal"), so this holds of every
term; the checks that can refuse something are those on numbers above. -/
def Instr.wellFormed (i : Instr) : Bool := decide (i.operand.m.toNat ≤ 255)

end Sys2Proof
end

