-- ==== Sys2Proof/Decode.lean ====
section
/-! DEFINITION. The decoder of `spec/30_encoding.md` R73 to R79, total on all pairs of cells and rejecting by name,
and after it the encoder, written from the opcode map of R75; the packed notation of R72. -/

namespace Sys2Proof

/-- Why the decoder gives no instruction: the spec's one reason, with the opcode cell (R76). -/
inductive Reject where
  /-- The opcode cell selects no instruction: `UnrecognizedOpcode` at dispatch (R73, R76, R143). -/
  | unrecognizedOpcode (op : Value)
deriving DecidableEq, Repr

/-- `Decode(op)`: the mnemonic of R75 when the sign is 0 and the magnitude is in the map, none otherwise (R73, R79).
An opcode cell with its sign set selects nothing: the spec's decision D4 (log entry 10). -/
def decodeOp (op : Value) : Option Mnemonic :=
  match op.s, op.m.toNat with
  | false, 0x01 => some .halt
  | false, 0x20 => some .add
  | false, 0x21 => some .lda
  | false, 0x22 => some .sta
  | false, 0x23 => some .jmp
  | false, 0x24 => some .sza
  | false, 0x25 => some .sub
  | false, 0x26 => some .ldx
  | false, 0x27 => some .stx
  | false, 0x28 => some .szx
  | false, 0x29 => some .dcx
  | false, 0x40 => some .addx
  | false, 0x41 => some .ldax
  | false, 0x42 => some .stax
  | _, _ => none

/-- The instruction of a mnemonic with its operand cell, unchanged (R74). -/
def Mnemonic.withOperand : Mnemonic → Value → Instr
  | .halt, v => .halt v
  | .add, v => .add v
  | .lda, v => .lda v
  | .sta, v => .sta v
  | .jmp, v => .jmp v
  | .sza, v => .sza v
  | .sub, v => .sub v
  | .ldx, v => .ldx v
  | .stx, v => .stx v
  | .szx, v => .szx v
  | .dcx, v => .dcx v
  | .addx, v => .addx v
  | .ldax, v => .ldax v
  | .stax, v => .stax v

/-- The instruction of an opcode cell and an operand cell; the operand plays no part in the selection (R73). -/
def decode (op opd : Value) : Except Reject Instr :=
  match decodeOp op with
  | some mn => .ok (mn.withOperand opd)
  | none => .error (.unrecognizedOpcode op)

/-- The opcode of each mnemonic (R75). -/
def Mnemonic.opcode : Mnemonic → BitVec 8
  | .halt => 0x01
  | .add => 0x20
  | .lda => 0x21
  | .sta => 0x22
  | .jmp => 0x23
  | .sza => 0x24
  | .sub => 0x25
  | .ldx => 0x26
  | .stx => 0x27
  | .szx => 0x28
  | .dcx => 0x29
  | .addx => 0x40
  | .ldax => 0x41
  | .stax => 0x42

/-- The two cells of an instruction, opcode cell first (R70, R75). -/
def encode (i : Instr) : Value × Value := (⟨false, i.mnemonic.opcode⟩, i.operand)

/-- The two cells of a packed word: `W[17]`, `W[16:9]`, `W[8]`, `W[7:0]` (R72). -/
def cellsOfWord (w : BitVec 18) : Value × Value :=
  (⟨w.getLsbD 17, w.extractLsb' 9 8⟩, ⟨w.getLsbD 8, w.extractLsb' 0 8⟩)

/-- A Value as hardware, the 9 bits `{s, m[7:0]}` (`spec/10_state.md` R20). -/
def cellBits (v : Value) : BitVec 9 := BitVec.ofBool v.s ++ v.m

/-- The packed word of two cells, `{opcode cell, operand cell}` (R72). -/
def wordOfCells (op opd : Value) : BitVec 18 := cellBits op ++ cellBits opd

/-- The instruction of a packed word. -/
def decodeWord (w : BitVec 18) : Except Reject Instr := decode (cellsOfWord w).1 (cellsOfWord w).2

/-- The packed word of an instruction. -/
def encodeWord (i : Instr) : BitVec 18 := wordOfCells (encode i).1 (encode i).2

/-- The host's probe: the instruction the decoder reads from the packed word `w`, numbered as the opcode table numbers
it, that is by R72: bits 17..9 the opcode cell (the first cell), bits 8..0 the operand cell. The table's rows are 18
bits, whatever number of whole bytes `nbits` says; bits above 17 are no part of an instruction (log entry 11). -/
def decodeTableWord (_nbits w : Nat) : Option Instr :=
  match decodeWord (BitVec.ofNat 18 w) with
  | .ok i => some i
  | .error _ => none

end Sys2Proof
end

