-- ==== Sys2Proof/Machine/Sequencer.lean ====
section
/-! DEFINITION. The fetch-execute sequencer of `spec/30_encoding.md` R78 and its gate (`spec/70_reset_and_hazards.md`
R174), over the execution of one instruction as an argument, so that one sequencer serves every value of `ALU_NEG`. -/

namespace Sys2Proof.Machine

/-- Step 3 of R78: dispatch on the opcode cell, `UnrecognizedOpcode` where it selects no instruction. -/
def dispatchBy (execute : Instr → State → Out) (op opd : Value) (s : State) : Out :=
  match decode op opd with
  | .ok i => execute i s
  | .error (.unrecognizedOpcode _) => raise .unrecognizedOpcode s

/-- `Step()`: fetch, then dispatch with IP already behind the instruction (R78). -/
def stepRunningBy (execute : Instr → State → Out) (s : State) : Out :=
  attempt (fetch s) s (fun f => dispatchBy execute f.op f.opd (s.setIp f.ip))

/-- `Step()` when RUN = 1 and FAULT = NONE, else nothing (R174). -/
def stepBy (execute : Instr → State → Out) (s : State) : Out :=
  if canStep s then stepRunningBy execute s else idle s

end Sys2Proof.Machine
end

