-- ==== Sys2Proof/Machine/Step.lean ====
section
/-! DEFINITION. One step of this hardware as the host takes it: `H_STEP` of `spec/70_reset_and_hazards.md` R174 around
`Step()` of `spec/30_encoding.md` R78, with the instructions of this hardware. -/

namespace Sys2Proof.Machine

/-- One step (R78, R174). -/
def step (s : State) : Host.Outcome State Fault Refusal := stepBy exec s

/-- `s` with the instruction of the packed word `w` placed where `step` fetches next, RUN set and FAULT clear, so that
the very next step runs it (log entry 11). -/
def State.withFetchWord (s : State) (_nbits w : Nat) : State :=
  placeInstruction s (cellsOfWord (BitVec.ofNat 18 w)).1 (cellsOfWord (BitVec.ofNat 18 w)).2

end Sys2Proof.Machine
end

