-- ==== Sys2Proof/Machine/HostOps.lean ====
section
/-! DEFINITION. The host's operations as transactions between two steps (`spec/00_scope.md` R9): each one answers the
state after it and a reply, or the step's own outcome. They are no instructions, so `step` performs none of them but
H_STEP, which is the step (log entry 12). -/

namespace Sys2Proof.Machine

/-- A state element the host can observe (`spec/60_exceptions.md` R155). -/
inductive Element where
  | acc | x | ip | run | xz | z | ovf | fault
  | cell (i : BitVec 8)
deriving DecidableEq, Repr

/-- What an observation shows. -/
inductive Observed where
  | value (v : Value)
  | flag (b : Bool)
  | cause (code : BitVec 2)
deriving DecidableEq, Repr

/-- The host operations of `spec/00_scope.md` R9. -/
inductive HostOp where
  | reset
  | load (pairs : List (Value × Value))
  | setIp (a : Value)
  | start
  | step
  | trace
  | dump (first last : Value) (printable : Bool)
  | observe (e : Element)
deriving DecidableEq, Repr

/-- What the host gets back. -/
inductive Reply where
  /-- The operation was performed and returns nothing. -/
  | done
  /-- The operation was refused and changed nothing. -/
  | refused
  /-- H_STEP's result (`spec/70_reset_and_hazards.md` R174). -/
  | stepped (halted : Bool) (fault : BitVec 2)
  /-- H_TRACE's three texts (`spec/60_exceptions.md` R153). -/
  | trace (ip acc x : List Char)
  /-- H_DUMP's text (R154). -/
  | text (t : List Char)
  /-- H_OBSERVE's element (R155). -/
  | observed (o : Observed)
deriving DecidableEq, Repr

/-- H_RESET (R170): every element at its reset value, in every state; the model's own counter goes on, so that free
values drawn after a reset are not those drawn before it (log entry 4). -/
def hReset (s : State) : State := { State.reset with draws := s.draws }

/-- The writes of H_LOAD in sequence order, so that a later pair to the same cell wins (`spec/20_memory.md` R66). -/
def loadPairs (m : Memory) (pairs : List (Value × Value)) : Memory :=
  pairs.foldl (fun m p => memWrite m p.1 p.2) m

/-- H_LOAD (R66): accepted only while RUN = 0. -/
def hLoad (pairs : List (Value × Value)) (s : State) : State × Reply :=
  if s.run then (s, .refused) else (s.setMem (loadPairs s.mem pairs), .done)

/-- H_SET_IP (R172): accepted only while RUN = 0 and FAULT = 0. -/
def hSetIp (a : Value) (s : State) : State × Reply :=
  if s.run || s.fault.isSome then (s, .refused) else (s.setIp a, .done)

/-- H_START (R173): RUN <- 1 when FAULT = 0, else nothing. -/
def hStart (s : State) : State × Reply := if s.fault.isSome then (s, .done) else (s.setRun true, .done)

/-- H_STEP's report of the state after it (R174): halted = (RUN = 0), fault = FAULT. -/
def stepReport (s : State) : Reply := .stepped (!s.run) (faultCode s.fault)

/-- H_STEP (R174), over the step as an argument. -/
def hStepBy (advance : State → Out) (s : State) : Host.Outcome (State × Reply) Fault Refusal :=
  match advance s with
  | .next t => .next (t, stepReport t)
  | .fault f => .fault f
  | .refused r => .refused r

/-- H_TRACE (R153): the magnitudes of IP, ACC and X in hex. -/
def hTrace (s : State) : Reply := .trace (hex s.ip) (hex s.acc) (hex s.x)

/-- The third column of a dump line, for a printable dump (R154): the character whose ASCII code is the magnitude
(X14), or the placeholder (D20). -/
def dumpThird (v : Value) : List Char :=
  Config.dumpCol3Sep ++ [if isPrintable v then Char.ofNat v.m.toNat else Config.dumpPlaceholder]

/-- One line of a dump (R154). -/
def dumpLine (m : Memory) (printable : Bool) (k : Nat) : List Char :=
  hex (.plus (BitVec.ofNat 8 k)) ++ [' '] ++ hex (m.read k) ++ (if printable then dumpThird (m.read k) else [])

/-- The addresses of a dump: from `first` up to but excluding `last` (R154). -/
def dumpAddresses (first last : Value) : List Nat := List.range' first.m.toNat (last.m.toNat - first.m.toNat)

/-- H_DUMP's bounds are accepted: both signs 0 and first ≤ last (R154; D14). -/
def dumpAccepted (first last : Value) : Bool :=
  !first.s && !last.s && decide (first.m.toNat ≤ last.m.toNat)

/-- H_DUMP (R154): the lines joined by newlines. -/
def hDump (first last : Value) (printable : Bool) (s : State) : Reply :=
  if dumpAccepted first last then
    .text (List.intercalate ['\n'] ((dumpAddresses first last).map (dumpLine s.mem printable)))
  else .refused

/-- H_OBSERVE (R155). -/
def hObserve (e : Element) (s : State) : Observed :=
  match e with
  | .acc => .value s.acc
  | .x => .value s.x
  | .ip => .value s.ip
  | .run => .flag s.run
  | .xz => .flag s.xz
  | .z => .flag s.z
  | .ovf => .flag s.ovf
  | .fault => .cause (faultCode s.fault)
  | .cell i => .value (s.mem.read i.toNat)

/-- One transaction (R9, R175), over the step as an argument. -/
def transactBy (advance : State → Out) (op : HostOp) (s : State) : Host.Outcome (State × Reply) Fault Refusal :=
  match op with
  | .reset => .next (hReset s, .done)
  | .load pairs => .next (hLoad pairs s)
  | .setIp a => .next (hSetIp a s)
  | .start => .next (hStart s)
  | .step => hStepBy advance s
  | .trace => .next (s, hTrace s)
  | .dump first last printable => .next (s, hDump first last printable s)
  | .observe e => .next (s, .observed (hObserve e s))

/-- A sequence of transactions, in the order the host issues them (`spec/20_memory.md` R61), over the step as an
argument. -/
def transactAllBy (advance : State → Out) : List HostOp → State → Out
  | [], s => .next s
  | op :: rest, s =>
    match transactBy advance op s with
    | .next (t, _) => transactAllBy advance rest t
    | .fault f => .fault f
    | .refused r => .refused r

/-- One transaction of this hardware. -/
def transact (op : HostOp) (s : State) : Host.Outcome (State × Reply) Fault Refusal := transactBy step op s

/-- A sequence of transactions of this hardware. -/
def transactAll (ops : List HostOp) (s : State) : Out := transactAllBy step ops s

end Sys2Proof.Machine
end

