-- ==== Sys2Proof/Machine/AluParameter.lean ====
section
/-! DEFINITION. The machine with `ALU_NEG` as its argument (`spec/00_scope.md` R6: "A model takes `ALU_NEG` as an
argument", `spec/41_accumulator.md` R101): an instruction, a step, a transaction and a whole machine for each of its
three values. `exec`, `step`, `transact` and `core` are this hardware's own, where it is `AbsTotal` (D5, log entry 5). -/

namespace Sys2Proof.Machine

/-- `Execute_I(opd)` under a value of `ALU_NEG`: the three instructions that use the ALU take it (R103, R106, R130),
and the others are as on this hardware. -/
def execWith (mode : Config.AluNeg) (i : Instr) (s : State) : Out :=
  match i with
  | .add v => execAddWith mode v s
  | .sub v => execSubWith mode v s
  | .addx v => execAddxWith mode v s
  | .halt _ | .lda _ | .sta _ | .jmp _ | .sza _ | .ldx _ | .stx _ | .szx _ | .dcx _ | .ldax _ | .stax _ => exec i s

/-- One step under a value of `ALU_NEG`. -/
def stepWith (mode : Config.AluNeg) (s : State) : Out := stepBy (execWith mode) s

/-- One transaction under a value of `ALU_NEG`. -/
def transactWith (mode : Config.AluNeg) (op : HostOp) (s : State) : Host.Outcome (State × Reply) Fault Refusal :=
  transactBy (stepWith mode) op s

/-- A sequence of transactions under a value of `ALU_NEG`. -/
def transactAllWith (mode : Config.AluNeg) (ops : List HostOp) (s : State) : Out :=
  transactAllBy (stepWith mode) ops s

/-- The machine under a value of `ALU_NEG`. -/
def coreWith (mode : Config.AluNeg) : Host.Core :=
  { State := State, Fault := Fault, Refusal := Refusal, step := stepWith mode, reset := State.reset }

end Sys2Proof.Machine
end

