-- ==== Sys2Proof/Machine/Image.lean ====
section
/-! DEFINITION. Program images as (Address, Value) pairs (`spec/30_encoding.md` R83) and the lines of the spec's
assembly notation as data (R81; log entry 18). Nothing in the hardware reads them; H_LOAD installs an image. -/

namespace Sys2Proof.Machine

/-- A program image, in the form H_LOAD takes it (R83). -/
abbrev Image := List (Value × Value)

/-- One line of R81. -/
inductive Line where
  /-- `[addr:] MNEMONIC [operand]`. -/
  | insn (addr : Option (BitVec 8)) (mn : Mnemonic) (operand : Option Value)
  /-- `addr: .cell value`. -/
  | cell (addr : BitVec 8) (v : Value)
deriving DecidableEq, Repr

/-- The operand cell of a line: as written; omitted it is `0x00`, which only form `NONE` allows (R81). -/
def lineOperand (mn : Mnemonic) : Option Value → Option Value
  | some v => some v
  | none => if mn.form = .none then some (.plus 0) else none

/-- The two cells of a line at address `p`: `{opcode, operand}` at `p` and `p + 1`, both inside the memory (R81, R70). -/
def placeLine (p : Nat) (mn : Mnemonic) (opd : Value) : Option Image :=
  if p + 1 < memSize then
    some [(.plus (BitVec.ofNat 8 p), (encode (mn.withOperand opd)).1),
          (.plus (BitVec.ofNat 8 (p + 1)), (encode (mn.withOperand opd)).2)]
  else none

/-- The image of a list of lines, `next` being the place after the previous instruction: without an address an
instruction follows the previous one at `+2` (R81). -/
def assembleFrom : Option Nat → List Line → Option Image
  | _, [] => some []
  | next, .cell a v :: rest => (assembleFrom next rest).map (fun image => (.plus a, v) :: image)
  | next, .insn addr mn operand :: rest =>
    match (addr.map BitVec.toNat).or next, lineOperand mn operand with
    | some p, some opd =>
      match placeLine p mn opd, assembleFrom (some (p + 2)) rest with
      | some here, some image => some (here ++ image)
      | _, _ => none
    | _, _ => none

/-- The image of a program text (R81, R83); none where a line has no place or lacks its operand. -/
def assemble (lines : List Line) : Option Image := assembleFrom none lines

end Sys2Proof.Machine
end

