-- ==== Sys2Proof/Safety.lean ====
section
/-! DEFINITION. The terms in which claims speak about runs: the invariant, which fault a step takes, where a store
goes, what reaches the ALU, and how a run ends. -/

namespace Sys2Proof.Machine

/-- The invariant of the model: the memory is in canonical form, and a FAULT is recorded only with RUN = 1 (a fault is
taken only by a step, a step runs only with RUN = 1, and a fault leaves RUN as it was: `spec/60_exceptions.md` R144). -/
abbrev State.Inv (s : State) : Prop := s.mem.wf = true ∧ (s.fault.isSome = true → s.run = true)

/-- The mnemonic the opcode cell at IP selects, if any. -/
def mnemonicAtIp (s : State) : Option Mnemonic := decodeOp (memRead s.mem s.ip)

/-- The signed sum of base and index at a step that has fetched operand `opd`. -/
def indexSum (s : State) (opd : Value) : Int := sv opd + sv s.x

/-- The operand cell a step fetches: the cell at IP incremented once (`spec/30_encoding.md` R70). -/
def operandAtIp (s : State) : Value := memRead s.mem (operandPlace s.ip)

/-- The fault a running step takes, by the list of `spec/60_exceptions.md` R141 to R143 in the priority of R145,
written from those rules and not from `step`. -/
def faultOfStep (s : State) : Option Cause :=
  if sv s.ip ≥ 254 then some .range
  else
    match mnemonicAtIp s with
    | none => some .unrecognizedOpcode
    | some .sza => if s.z = true ∧ sv s.ip + 2 + 2 > 255 then some .range else none
    | some .szx => if s.xz = true ∧ sv s.ip + 2 + 2 > 255 then some .range else none
    | some .dcx => if sv s.x = -255 then some .range else none
    | some mn =>
      if mn.form = .indexed ∧ (indexSum s (operandAtIp s) > 255 ∨ indexSum s (operandAtIp s) < -255)
      then some .indexCarry else none

/-- The address an instruction stores to, if it stores: the operand itself for the direct stores, the resolved address
for STAX (none where the resolution faults). -/
def storeAddress (i : Instr) (s : State) : Option Value :=
  match i with
  | .sta addr => some addr
  | .stx addr => some addr
  | .stax base => (resolve base (some s.x)).toOption
  | .halt _ | .add _ | .lda _ | .jmp _ | .sza _ | .sub _ | .ldx _ | .szx _ | .dcx _ | .addx _ | .ldax _ => none

/-- The Value an instruction stores, where it stores. -/
def storedValue (i : Instr) (s : State) : Value :=
  match i with
  | .stx _ => s.x
  | .sta _ | .stax _ | .halt _ | .add _ | .lda _ | .jmp _ | .sza _ | .sub _ | .ldx _ | .szx _ | .dcx _ | .addx _
  | .ldax _ => s.acc

/-- The signed total an instruction hands the ALU, if it uses the ALU (none for ADDX where its resolution faults
before the ALU). Written from `spec/41_accumulator.md` R103, R106 and `spec/43_indexed.md` R130. -/
def aluTotal (i : Instr) (s : State) : Option Int :=
  match i with
  | .add addr => some (sv s.acc + sv (memRead s.mem addr))
  | .sub addr => some (sv s.acc - sv (memRead s.mem addr))
  | .addx base => (resolve base (some s.x)).toOption.map (fun ea => sv s.acc + sv (memRead s.mem ea))
  | .halt _ | .lda _ | .sta _ | .jmp _ | .sza _ | .ldx _ | .stx _ | .szx _ | .dcx _ | .ldax _ | .stax _ => none

/-- After `k` steps from `s` the run state is `r`. -/
def RunReaches (s : State) (k : Nat) (r : RunState) : Prop :=
  ∃ t, Host.Core.run core k s = .next t ∧ runState t = r

/-- A run ends HALTED, the one successful end (`spec/70_reset_and_hazards.md` R176). -/
def EndsHalted (s : State) : Prop := ∃ k, RunReaches s k .halted

/-- A run ends FAULTED (R176). -/
def EndsFaulted (s : State) : Prop := ∃ k, RunReaches s k .faulted

/-- A run does not end (R176). -/
def NeverEnds (s : State) : Prop := ∀ k, RunReaches s k .running

end Sys2Proof.Machine
end

