-- ==== Sys2Proof/Certificates/Slice0/Obligations.lean ====
section
/-! DEFINITION. The statements for the provers, from the numbered rules of `spec/`. Where a statement rests on a
decision of the spec's own (D1 to D24 of `spec/92_eei_decisions.md`) or on a choice of the model, its docstring says
so. No statement rests on a value of a free value or of the counter `draws`. -/

open Sys2Proof Sys2Proof.Machine

/-! ### Values: `spec/10_state.md` -/

/-- R21: the signed integer of a Value, in -255..255; both zeros are 0. -/
def Obligations.SignedIntegerOfValue : Prop :=
  (∀ m : BitVec 8, sv ⟨false, m⟩ = (m.toNat : Int) ∧ sv ⟨true, m⟩ = -(m.toNat : Int)) ∧
  (∀ v : Value, -255 ≤ sv v ∧ sv v ≤ 255) ∧ sv (.plus 0) = 0 ∧ sv (.minus 0) = 0

/-- R22: the Value built from an integer; out of range it is `RangeError`; `mk(0) = +0`. -/
def Obligations.ValueFromInteger : Prop :=
  (∀ n : Int, -255 ≤ n → n < 0 → mkValue n = .ok ⟨true, BitVec.ofNat 8 n.natAbs⟩) ∧
  (∀ n : Int, 0 ≤ n → n ≤ 255 → mkValue n = .ok ⟨false, BitVec.ofNat 8 n.natAbs⟩) ∧
  (∀ n : Int, n < -255 ∨ 255 < n → mkValue n = .error .range) ∧ mkValue 0 = .ok (.plus 0)

/-- R23: `Inc(v, d) = mk(sv(v) + d)`: the exact signed sum where it is in range, `RangeError` where it is not, never a
wrap. -/
def Obligations.IncrementNeverWraps : Prop :=
  ∀ (v : Value) (d : Int), inc v d = mkValue (sv v + d) ∧
    (inc v d = .error .range ↔ sv v + d > 255 ∨ sv v + d < -255) ∧
    (∀ w, inc v d = .ok w → sv w = sv v + d)

/-- R25: equality needs sign and magnitude both, and the zero test is true of `+0` alone. -/
def Obligations.EqualityAndZeroTest : Prop :=
  (∀ v w : Value, sameValue v w = true ↔ v.s = w.s ∧ v.m = w.m) ∧
  (∀ v : Value, isZero v = true ↔ v.s = false ∧ v.m = 0) ∧
  sameValue (.plus 0) (.minus 0) = false ∧ isZero (.minus 0) = false

/-- R26: the Value-level add. Carry exactly where the signed sum leaves -255..255, the sum then moved by 256, and never
`RangeError`. -/
def Obligations.ValueAddWithCarry : Prop :=
  ∀ a b : Value,
    (sv a + sv b > 255 → ∃ r, vAdd a b = .ok (r, true) ∧ mkValue (sv a + sv b - 256) = .ok r) ∧
    (sv a + sv b < -255 → ∃ r, vAdd a b = .ok (r, true) ∧ mkValue (sv a + sv b + 256) = .ok r) ∧
    (-255 ≤ sv a + sv b → sv a + sv b ≤ 255 → ∃ r, vAdd a b = .ok (r, false) ∧ mkValue (sv a + sv b) = .ok r)

/-! ### Memory and indexed addressing: `spec/20_memory.md` -/

/-- R53: a write stores all 9 bits in the cell `a.m` and in no other cell; it never fails. The memory is in the model's
canonical form. -/
def Obligations.WriteStoresOneCell : Prop :=
  ∀ (m : Memory) (a v b : Value), m.wf = true →
    memRead (memWrite m a v) b = if b.m = a.m then v else memRead m b

/-- A read uses the address's magnitude alone, whatever its sign, and a cell never written reads `+0`. The sign is the
spec's own decision D2 (log entry 8). -/
def Obligations.ReadUsesMagnitude : Prop :=
  (∀ (m : Memory) (a b : Value), a.m = b.m → memRead m a = memRead m b) ∧
  (∀ a : Value, memRead State.reset.mem a = .plus 0)

/-- The model's memory form is canonical: two memories in the form that read alike everywhere are equal. The model's
own representation (log entry 1). -/
def Obligations.CanonicalMemoriesAreEqual : Prop :=
  ∀ m n : Memory, m.wf = true → n.wf = true → (∀ a : Value, memRead m a = memRead n a) → m = n

/-- R59: the indexing engine. Without an index the address itself; with one, `mk` of the signed sum, and
`IndexCarryError` exactly where that sum leaves -255..255: no wrap. -/
def Obligations.ResolveFaultsOnCarry : Prop :=
  (∀ a : Value, resolve a none = .ok a) ∧
  (∀ a i : Value, (sv a + sv i > 255 ∨ sv a + sv i < -255) → resolve a (some i) = .error .indexCarry) ∧
  (∀ a i : Value, -255 ≤ sv a + sv i → sv a + sv i ≤ 255 → resolve a (some i) = mkValue (sv a + sv i))

/-- R60: indexed read and write resolve and then delegate; where `Resolve` faults nothing is read or written; a value
written through an index is read back through it and through the plain path. -/
def Obligations.IndexedAccessAgreesWithPlain : Prop :=
  ∀ (m : Memory) (a v : Value) (i : Option Value), m.wf = true →
    (∀ c, resolve a i = .error c → idxRead m a i = .error c ∧ idxWrite m a i v = .error c) ∧
    (∀ ea, resolve a i = .ok ea → idxRead m a i = .ok (memRead m ea) ∧
      ∃ m', idxWrite m a i v = .ok m' ∧ m' = memWrite m ea v ∧ idxRead m' a i = .ok v ∧ memRead m' ea = v) ∧
    (∀ j, i = some j → -255 ≤ sv a + sv j → sv a + sv j ≤ 255 →
      ∃ ea, mkValue (sv a + sv j) = .ok ea ∧ idxRead m a i = .ok (memRead m ea))

/-! ### Encoding: `spec/30_encoding.md` -/

/-- Decode and encode agree on cells and on packed words, in both directions: every operand value of every instruction
comes back, and no bit of a decodable word is dropped. The ignored operand is kept by the model (log entry 14). -/
def Obligations.DecodeEncodeAgree : Prop :=
  (∀ i : Instr, i.wellFormed = true → decode (encode i).1 (encode i).2 = .ok i ∧ decodeWord (encodeWord i) = .ok i) ∧
  (∀ (op opd : Value) (i : Instr), decode op opd = .ok i → encode i = (op, opd)) ∧
  (∀ (w : BitVec 18) (i : Instr), decodeWord w = .ok i → encodeWord i = w)

/-- The decoder, written from the opcode map, agrees with the mask and match rows of `opcode_table.json` on every
18-bit word, and no word matches two rows. The packed notation is the spec's own (D15). -/
def Obligations.DecoderMatchesOpcodeTable : Prop :=
  (∀ (w : BitVec 18) (i : Instr), decodeWord w = .ok i ↔
    (∃ r ∈ opcodeTable, w &&& r.mask = r.pattern ∧ r.mnemonic = i.mnemonic) ∧
      i.operand = ⟨w.getLsbD 8, w.extractLsb' 0 8⟩) ∧
  (∀ (w : BitVec 18) (r q : TableRow), r ∈ opcodeTable → q ∈ opcodeTable → w &&& r.mask = r.pattern →
    w &&& q.mask = q.pattern → r = q)

/-- The encodings of the opcode map, one word of each of the 14 instructions written out as opcode cell and operand
cell. -/
def Obligations.OpcodeMapWords : Prop :=
  decode (.plus 0x01) (.minus 0x7F) = .ok (.halt (.minus 0x7F)) ∧
  decode (.plus 0x20) (.plus 0x11) = .ok (.add (.plus 0x11)) ∧
  decode (.plus 0x21) (.plus 0x10) = .ok (.lda (.plus 0x10)) ∧
  decode (.plus 0x22) (.minus 0x12) = .ok (.sta (.minus 0x12)) ∧
  decode (.plus 0x23) (.minus 0x06) = .ok (.jmp (.minus 0x06)) ∧
  decode (.plus 0x24) (.plus 0x00) = .ok (.sza (.plus 0x00)) ∧
  decode (.plus 0x25) (.plus 0x13) = .ok (.sub (.plus 0x13)) ∧
  decode (.plus 0x26) (.plus 0x10) = .ok (.ldx (.plus 0x10)) ∧
  decode (.plus 0x27) (.plus 0x14) = .ok (.stx (.plus 0x14)) ∧
  decode (.plus 0x28) (.minus 0x00) = .ok (.szx (.minus 0x00)) ∧
  decode (.plus 0x29) (.plus 0xFF) = .ok (.dcx (.plus 0xFF)) ∧
  decode (.plus 0x40) (.plus 0x50) = .ok (.addx (.plus 0x50)) ∧
  decode (.plus 0x41) (.plus 0xF0) = .ok (.ldax (.plus 0xF0)) ∧
  decode (.plus 0x42) (.plus 0x10) = .ok (.stax (.plus 0x10))

/-- An opcode cell is refused, by name, exactly when its sign is set or its magnitude is none of the 14 opcodes; the
operand plays no part. The sign is the spec's own decision D4 (log entry 10). -/
def Obligations.IllegalOpcodeCells : Prop :=
  ∀ op opd : Value, decode op opd = .error (.unrecognizedOpcode op) ↔
    op.s = true ∨
      op.m.toNat ∉ [0x01, 0x20, 0x21, 0x22, 0x23, 0x24, 0x25, 0x26, 0x27, 0x28, 0x29, 0x40, 0x41, 0x42]

/-! ### The step: `spec/30_encoding.md` R78, `spec/70_reset_and_hazards.md` -/

/-- R78: a step runs the decoded instruction. With RUN = 1 and FAULT = NONE the opcode cell is at IP, the operand cell
at IP incremented once, and the instruction executes with IP incremented twice; either increment past 255 is
`RangeError`; an opcode cell that selects nothing is `UnrecognizedOpcode`. -/
def Obligations.StepRunsDecodedInstruction : Prop :=
  ∀ s : State, s.run = true → s.fault = none →
    (254 ≤ sv s.ip → step s = .next (takeFault .range s)) ∧
    (sv s.ip ≤ 253 → ∃ ip1 ip2, inc s.ip 1 = .ok ip1 ∧ inc ip1 1 = .ok ip2 ∧
      (∀ i, decode (memRead s.mem s.ip) (memRead s.mem ip1) = .ok i → step s = exec i { s with ip := ip2 }) ∧
      (decodeOp (memRead s.mem s.ip) = none →
        step s = .next (takeFault .unrecognizedOpcode { s with ip := ip2 })))

/-- Where a fetch finds its cells: below 254 it never faults, negative IPs among them, and IP moves by two toward
higher integers; the operand cell is the next cell up from a non-negative IP and the next cell down from a negative
one. The movement of a negative IP rests on the spec's decision D3 (log entry 9). -/
def Obligations.FetchMovesIpByTwo : Prop :=
  ∀ s : State,
    (sv s.ip ≤ 253 → ∃ f, fetch s = .ok f ∧ sv f.ip = sv s.ip + 2 ∧ f.op = s.mem.read s.ip.m.toNat ∧
      (0 ≤ sv s.ip → f.opd = s.mem.read (s.ip.m.toNat + 1)) ∧
      (sv s.ip < 0 → f.opd = s.mem.read (s.ip.m.toNat - 1))) ∧
    (254 ≤ sv s.ip → fetch s = .error .range)

/-- The run state is RUNNING, HALTED or FAULTED by RUN and FAULT alone, and while it is not RUNNING a step changes
nothing and H_STEP reports the state as it is. The FAULTED state and the idle step are the spec's own decisions D8 and
D9 (log entries 2 and 7). -/
def Obligations.NoStepUnlessRunning : Prop :=
  ∀ s : State,
    (runState s = .running ↔ s.run = true ∧ s.fault = none) ∧
    (runState s = .halted ↔ s.run = false ∧ s.fault = none) ∧
    (runState s = .faulted ↔ s.fault ≠ none) ∧
    (s.run = false ∨ s.fault ≠ none → step s = .next s ∧
      transact .step s = .next (s, .stepped (!s.run) (faultCode s.fault)))

/-! ### Control instructions: `spec/40_control.md` -/

/-- HALT clears RUN and changes nothing else (R90); no further step follows. That a step with RUN = 0 answers the same
state is the spec's own decision D8 (log entry 7). -/
def Obligations.HaltClearsRun : Prop :=
  ∀ (o : Value) (s : State), encode (.halt o) = (.plus 0x01, o) ∧
    exec (.halt o) s = .next { s with run := false } ∧
    step { s with run := false } = .next { s with run := false }

/-- JMP sets IP to its operand and changes nothing else. That the sign goes along is the spec's own decision D3 (log
entry 9). -/
def Obligations.JmpSetsIp : Prop :=
  ∀ (a : Value) (s : State), encode (.jmp a) = (.plus 0x23, a) ∧ exec (.jmp a) s = .next { s with ip := a }

/-- R92: SZA skips when Z = 1 and does nothing else; a skip past 255 is `RangeError`. -/
def Obligations.SzaSkipsOnZero : Prop :=
  ∀ (o : Value) (s : State), encode (.sza o) = (.plus 0x24, o) ∧
    (s.z = false → exec (.sza o) s = .next s) ∧
    (s.z = true → sv s.ip + 2 ≤ 255 →
      ∃ ip, inc s.ip 2 = .ok ip ∧ sv ip = sv s.ip + 2 ∧ exec (.sza o) s = .next { s with ip := ip }) ∧
    (s.z = true → sv s.ip + 2 > 255 → exec (.sza o) s = .next (takeFault .range s))

/-- R93: SZX skips when XZ = 1 and does nothing else; a skip past 255 is `RangeError`. -/
def Obligations.SzxSkipsOnIndexZero : Prop :=
  ∀ (o : Value) (s : State), encode (.szx o) = (.plus 0x28, o) ∧
    (s.xz = false → exec (.szx o) s = .next s) ∧
    (s.xz = true → sv s.ip + 2 ≤ 255 →
      ∃ ip, inc s.ip 2 = .ok ip ∧ sv ip = sv s.ip + 2 ∧ exec (.szx o) s = .next { s with ip := ip }) ∧
    (s.xz = true → sv s.ip + 2 > 255 → exec (.szx o) s = .next (takeFault .range s))

/-- One increment by two is two increments by one, in its result and in where it faults: the two readings of the skip
agree. That the skip is the single increment is the spec's own decision D16 (log entry 17). -/
def Obligations.SkipIsTwoIncrements : Prop :=
  ∀ v : Value, inc v 2 = (match inc v 1 with
    | .ok w => inc w 1
    | .error c => .error c)

/-! ### The ALU and the accumulator instructions: `spec/41_accumulator.md` -/

/-- The closed form of the ALU add on this hardware, for every pair of Values. The reading of a negative total is the
spec's own decision D5 (log entry 5). -/
def Obligations.AluAddClosedForm : Prop :=
  ∀ a b : Value, aluAdd a b =
    .done ⟨false, BitVec.ofNat 8 ((sv a + sv b).natAbs % 256)⟩ (decide ((sv a + sv b).natAbs % 256 = 0))
      (decide ((sv a + sv b).natAbs > 255))

/-- The readings of `ALU_NEG`: they differ on negative totals only. For a total of 0 or more every value gives the
wrapped unsigned total; below 0, `SignedResult` gives `mk` of the total with both flags 0 or `RangeError` below -255,
and `Fault` no meaning. `ALU_NEG` is the spec's own parameter (D5, log entry 5). -/
def Obligations.AluNegReadings : Prop :=
  ∀ a b : Value,
    (∀ mode, 0 ≤ sv a + sv b → aluAddWith mode a b =
      .done ⟨false, BitVec.ofNat 8 ((sv a + sv b).natAbs % 256)⟩ (decide ((sv a + sv b) % 256 = 0))
        (decide (sv a + sv b > 255))) ∧
    (sv a + sv b < 0 → -255 ≤ sv a + sv b →
      ∃ r, mkValue (sv a + sv b) = .ok r ∧ aluAddWith .signedResult a b = .done r false false) ∧
    (sv a + sv b < -255 → aluAddWith .signedResult a b = .raised .range) ∧
    (sv a + sv b < 0 → aluAddWith .fault a b = .noMeaning)

/-- R102: the subtract is negate, then add, flags and all, for every value of `ALU_NEG`; the negated copy has the
opposite signed value. -/
def Obligations.SubtractIsNegateThenAdd : Prop :=
  ∀ a b : Value, (∀ mode, aluSubWith mode a b = aluAddWith mode a ⟨!b.s, b.m⟩) ∧
    aluSub a b = aluAdd a ⟨!b.s, b.m⟩ ∧ sv ⟨!b.s, b.m⟩ = -sv b

/-- Laws of the ALU on this hardware: commutative; a function of the magnitude of the signed sum; on operands of sign 0
an 8-bit unsigned add with its carry, and an absolute difference without overflow; both flags only at a total of
magnitude 256. They rest on the spec's decision D5 (log entry 5). -/
def Obligations.AluArithmeticLaws : Prop :=
  (∀ a b : Value, aluAdd a b = aluAdd b a) ∧
  (∀ a b c d : Value, (sv a + sv b).natAbs = (sv c + sv d).natAbs → aluAdd a b = aluAdd c d) ∧
  (∀ m n : BitVec 8, aluAdd (.plus m) (.plus n) =
    .done (.plus (m + n)) (decide (m + n = 0)) (BitVec.carry 8 m n false)) ∧
  (∀ m n : BitVec 8, aluSub (.plus m) (.plus n) =
    .done (.plus (if m < n then n - m else m - n)) (decide (m = n)) false) ∧
  (∀ (a b r : Value), aluAdd a b = .done r true true ↔ (sv a + sv b).natAbs = 256 ∧ r = .plus 0)

/-- ADD writes ACC, Z and OVF with the ALU's answer for ACC and the cell, and nothing else (R103); it raises nothing on
this hardware; under `SignedResult` a total below -255 is `RangeError` with ACC unchanged. That it completes for every
total rests on `ALU_NEG` = `AbsTotal`, the spec's own decision D5 (log entry 5). -/
def Obligations.AddToAccumulator : Prop :=
  ∀ (a : Value) (s : State), encode (.add a) = (.plus 0x20, a) ∧
    (∃ r z ovf, aluAdd s.acc (memRead s.mem a) = .done r z ovf ∧
      exec (.add a) s = .next { s with acc := r, z := z, ovf := ovf }) ∧
    (sv s.acc + sv (memRead s.mem a) < -255 →
      execAddWith .signedResult a s = .next (takeFault .range s) ∧ (takeFault .range s).acc = s.acc)

/-- R104: LDA copies the cell, sign included, and writes no flag and nothing else. -/
def Obligations.LdaLoadsAccumulator : Prop :=
  ∀ (a : Value) (s : State), encode (.lda a) = (.plus 0x21, a) ∧
    exec (.lda a) s = .next { s with acc := memRead s.mem a }

/-- R105: STA stores ACC, sign included, in the cell of its operand's magnitude and in no other cell, and writes no
register and no flag. -/
def Obligations.StaStoresAccumulator : Prop :=
  ∀ (a : Value) (s : State), encode (.sta a) = (.plus 0x22, a) ∧
    exec (.sta a) s = .next { s with mem := memWrite s.mem a s.acc } ∧
    (s.mem.wf = true → ∀ b, memRead (memWrite s.mem a s.acc) b = if b.m = a.m then s.acc else memRead s.mem b)

/-- SUB writes ACC, Z and OVF with the ALU's subtraction of the cell from ACC, and nothing else, the cell included
(R106); it raises nothing on this hardware; under `SignedResult` a total below -255 is `RangeError`. That it completes
for every total rests on `ALU_NEG` = `AbsTotal`, the spec's own decision D5 (log entry 5). -/
def Obligations.SubFromAccumulator : Prop :=
  ∀ (a : Value) (s : State), encode (.sub a) = (.plus 0x25, a) ∧
    (∃ r z ovf, aluSub s.acc (memRead s.mem a) = .done r z ovf ∧
      exec (.sub a) s = .next { s with acc := r, z := z, ovf := ovf }) ∧
    (sv s.acc - sv (memRead s.mem a) < -255 → execSubWith .signedResult a s = .next (takeFault .range s))

/-! ### The index register instructions: `spec/42_index_register.md` -/

/-- R120: LDX copies the cell into X, sign included, and writes no flag (XZ included) and nothing else. -/
def Obligations.LdxLoadsIndex : Prop :=
  ∀ (a : Value) (s : State), encode (.ldx a) = (.plus 0x26, a) ∧
    exec (.ldx a) s = .next { s with x := memRead s.mem a }

/-- R121: STX stores X, sign included, in the cell of its operand's magnitude and in no other cell, and writes no
register and no flag. -/
def Obligations.StxStoresIndex : Prop :=
  ∀ (a : Value) (s : State), encode (.stx a) = (.plus 0x27, a) ∧
    exec (.stx a) s = .next { s with mem := memWrite s.mem a s.x } ∧
    (s.mem.wf = true → ∀ b, memRead (memWrite s.mem a s.x) b = if b.m = a.m then s.x else memRead s.mem b)

/-- R122: DCX decrements X by one as a signed integer, never wraps and never builds `-0`, and writes XZ, always, with
whether the new X is `+0`; at -255 it is `RangeError`. -/
def Obligations.DcxDecrementsIndex : Prop :=
  ∀ (o : Value) (s : State), encode (.dcx o) = (.plus 0x29, o) ∧
    (sv s.x ≠ -255 → ∃ x, inc s.x (-1) = .ok x ∧ sv x = sv s.x - 1 ∧ x ≠ .minus 0 ∧
      exec (.dcx o) s = .next { s with x := x, xz := decide (x = .plus 0) } ∧ (x = .plus 0 ↔ sv s.x = 1)) ∧
    (sv s.x = -255 → exec (.dcx o) s = .next (takeFault .range s))

/-! ### The indexed instructions: `spec/43_indexed.md` -/

/-- ADDX resolves base plus X, then adds the cell through the ALU, writing ACC, Z and OVF and nothing else (R130); on
carry `IndexCarryError` before the ALU; under `SignedResult` the ALU's `RangeError` as for ADD. That it completes for
every ALU total rests on `ALU_NEG` = `AbsTotal`, the spec's own decision D5 (log entry 5). -/
def Obligations.AddxAddsIndexedCell : Prop :=
  ∀ (a : Value) (s : State), encode (.addx a) = (.plus 0x40, a) ∧
    (-255 ≤ sv a + sv s.x → sv a + sv s.x ≤ 255 → ∃ ea r z ovf, mkValue (sv a + sv s.x) = .ok ea ∧
      aluAdd s.acc (memRead s.mem ea) = .done r z ovf ∧
      exec (.addx a) s = .next { s with acc := r, z := z, ovf := ovf } ∧
      (sv s.acc + sv (memRead s.mem ea) < -255 → execAddxWith .signedResult a s = .next (takeFault .range s))) ∧
    (sv a + sv s.x > 255 ∨ sv a + sv s.x < -255 → exec (.addx a) s = .next (takeFault .indexCarry s))

/-- R131: LDAX loads ACC from base plus X, sign included, and writes no flag and nothing else; on carry
`IndexCarryError`, ACC not loaded. -/
def Obligations.LdaxLoadsIndexedCell : Prop :=
  ∀ (a : Value) (s : State), encode (.ldax a) = (.plus 0x41, a) ∧
    (-255 ≤ sv a + sv s.x → sv a + sv s.x ≤ 255 → ∃ ea, mkValue (sv a + sv s.x) = .ok ea ∧
      exec (.ldax a) s = .next { s with acc := memRead s.mem ea }) ∧
    (sv a + sv s.x > 255 ∨ sv a + sv s.x < -255 →
      exec (.ldax a) s = .next (takeFault .indexCarry s) ∧ (takeFault .indexCarry s).acc = s.acc)

/-- R132: STAX stores ACC at base plus X, sign included, and writes no register and no flag; on carry
`IndexCarryError`, no cell written. -/
def Obligations.StaxStoresIndexedCell : Prop :=
  ∀ (a : Value) (s : State), encode (.stax a) = (.plus 0x42, a) ∧
    (-255 ≤ sv a + sv s.x → sv a + sv s.x ≤ 255 → ∃ ea, mkValue (sv a + sv s.x) = .ok ea ∧
      exec (.stax a) s = .next { s with mem := memWrite s.mem ea s.acc }) ∧
    (sv a + sv s.x > 255 ∨ sv a + sv s.x < -255 →
      exec (.stax a) s = .next (takeFault .indexCarry s) ∧ (takeFault .indexCarry s).mem = s.mem)

/-! ### Frames -/

/-- What every instruction leaves unchanged, faulting or not: ACC but for ADD, SUB, ADDX, LDA, LDAX; X but for LDX and
DCX; XZ but for DCX; RUN but for HALT; Z and OVF but for ADD, SUB and ADDX, where no fault is taken; and a memory cell
but for STA, STX and STAX. Where a fault is taken, all of ACC, X, XZ, RUN and memory. IP, which is behind the
instruction already, but for JMP, SZA and SZX where no fault is taken; FAULT but for the six that can raise. That ADD
and SUB leave FAULT alone, and that ADDX takes no fault of the ALU, is the spec's own decision D5 (log entry 5). -/
def Obligations.InstructionFrame : Prop :=
  ∀ (i : Instr) (s t : State), s.fault = none → exec i s = .next t →
    (i.mnemonic ∉ [Mnemonic.add, .sub, .addx, .lda, .ldax] ∨ t.fault ≠ none → t.acc = s.acc) ∧
    (i.mnemonic ∉ [Mnemonic.ldx, .dcx] ∨ t.fault ≠ none → t.x = s.x) ∧
    (i.mnemonic ≠ .dcx ∨ t.fault ≠ none → t.xz = s.xz) ∧
    (i.mnemonic ≠ .halt ∨ t.fault ≠ none → t.run = s.run) ∧
    (i.mnemonic ∉ [Mnemonic.add, .sub, .addx] → t.fault = none → t.z = s.z ∧ t.ovf = s.ovf) ∧
    (i.mnemonic ∉ [Mnemonic.jmp, .sza, .szx] → t.fault = none → t.ip = s.ip) ∧
    (i.mnemonic ∉ [Mnemonic.sza, .szx, .dcx, .addx, .ldax, .stax] → t.fault = s.fault) ∧
    (i.mnemonic ∉ [Mnemonic.sta, .stx, .stax] ∨ t.fault ≠ none → ∀ a, memRead t.mem a = memRead s.mem a)

/-- What a store leaves unchanged: with the address computed by the meaning's own resolution, the cell there holds ACC
(STA, STAX) or X (STX) and every other cell reads as before; where no address is stored to, every cell reads as
before. -/
def Obligations.StoreFrame : Prop :=
  ∀ (i : Instr) (s t : State), s.mem.wf = true → exec i s = .next t →
    (∀ ea, storeAddress i s = some ea →
      memRead t.mem ea = storedValue i s ∧ ∀ b : Value, b.m ≠ ea.m → memRead t.mem b = memRead s.mem b) ∧
    (storeAddress i s = none → ∀ b, memRead t.mem b = memRead s.mem b)

/-! ### Faults: `spec/60_exceptions.md` -/

/-- Taking a fault: FAULT holds the cause with its code, the run state is FAULTED, and memory, ACC, X, XZ and RUN are
as before; of IP, Z and OVF nothing is said. The register and its codes are the spec's own decisions D9 and D10 (log
entries 2, 3 and 16). -/
def Obligations.FaultEntryState : Prop :=
  ∀ (c : Cause) (s : State),
    (takeFault c s).fault = some c ∧ runState (takeFault c s) = .faulted ∧
    (takeFault c s).mem = s.mem ∧ (takeFault c s).acc = s.acc ∧ (takeFault c s).x = s.x ∧
    (takeFault c s).xz = s.xz ∧ (takeFault c s).run = s.run ∧
    faultCode none = 0 ∧ faultCode (some .range) = 1 ∧ faultCode (some .indexCarry) = 2 ∧
    faultCode (some .unrecognizedOpcode) = 3

/-- A running step always answers a next state, and takes exactly the fault that the list of error kinds and their
priority give it, no other and none where they give none. The list is derived in the spec (R141, R145). It rests on
the spec's own decisions D4 (an opcode cell of sign 1 is unrecognized, log entry 10), D5 (the ALU raises nothing on
this hardware, log entry 5) and D9 (the FAULT register, log entry 2). -/
def Obligations.StepFaultsExactlyAsListed : Prop :=
  ∀ s : State, s.run = true → s.fault = none → ∃ t, step s = .next t ∧ t.fault = faultOfStep s

/-- Whatever step takes a fault, memory, ACC, X, XZ and RUN are as they were before the step, and the next step
changes nothing. Derived in the spec (R144, D9). -/
def Obligations.FaultingStepKeepsData : Prop :=
  ∀ s t : State, s.fault = none → step s = .next t → t.fault ≠ none →
    t.mem = s.mem ∧ t.acc = s.acc ∧ t.x = s.x ∧ t.xz = s.xz ∧ t.run = true ∧ step t = .next t

/-- The free values of a fault do not leak: two states that differ in the model's own counter alone step alike but for
the counter, and but for IP, Z and OVF where a fault is taken (log entry 3). -/
def Obligations.FreeValuesStayInFaultedStates : Prop :=
  ∀ (s t : State) (n : Nat), step s = .next t → ∃ u, step { s with draws := n } = .next u ∧
    (t.fault = none → { u with draws := t.draws } = t) ∧
    { u with draws := t.draws, ip := t.ip, z := t.z, ovf := t.ovf } = t

/-! ### Whole-machine rules: `spec/10_state.md` R33 to R42 -/

/-- Who writes the control and status state, over all steps: XZ only DCX; Z and OVF only ADD, SUB and ADDX (or a
fault); RUN only HALT, and only to 0; FAULT only from none to a cause. -/
def Obligations.StatusWriters : Prop :=
  ∀ s t : State, step s = .next t →
    (t.xz ≠ s.xz → mnemonicAtIp s = some .dcx) ∧
    (t.z ≠ s.z ∨ t.ovf ≠ s.ovf → t.fault ≠ none ∨
      mnemonicAtIp s = some .add ∨ mnemonicAtIp s = some .sub ∨ mnemonicAtIp s = some .addx) ∧
    (t.run ≠ s.run → mnemonicAtIp s = some .halt ∧ t.run = false) ∧
    (t.fault ≠ s.fault → s.fault = none)

/-- Who reads the flags, over all steps: OVF no instruction, Z only SZA, XZ only SZX. Changing the flag before any
other step changes nothing of the step's outcome but that flag, where no fault is taken; where one is taken, the other run
takes the same fault and agrees but for that flag and for IP, Z, OVF and the model's own counter, of which nothing is
said (R144, log entry 3). -/
def Obligations.FlagReaders : Prop :=
  ∀ (s t : State) (b : Bool), step s = .next t →
    (∃ u, step { s with ovf := b } = .next u ∧ (t.fault = s.fault → { u with ovf := t.ovf } = t) ∧
      { u with ip := t.ip, z := t.z, ovf := t.ovf, draws := t.draws } = t) ∧
    (mnemonicAtIp s ≠ some .sza → ∃ u, step { s with z := b } = .next u ∧
      (t.fault = s.fault → { u with z := t.z } = t) ∧
      { u with ip := t.ip, z := t.z, ovf := t.ovf, draws := t.draws } = t) ∧
    (mnemonicAtIp s ≠ some .szx → ∃ u, step { s with xz := b } = .next u ∧
      (t.fault = s.fault → { u with xz := t.xz } = t) ∧
      { u with xz := t.xz, ip := t.ip, z := t.z, ovf := t.ovf, draws := t.draws } = t)

/-- Self-modifying code needs nothing in between: a store is seen by the very next fetch, in its opcode cell and in its
operand cell. Derived in the spec (R64, R178). -/
def Obligations.StoreSeenByNextFetch : Prop :=
  ∀ (s t : State) (i : Instr) (ea : Value) (f : Fetched), s.mem.wf = true → exec i s = .next t →
    storeAddress i s = some ea → fetch t = .ok f →
    (t.ip.m = ea.m → f.op = storedValue i s) ∧
    (∀ ip1, inc t.ip 1 = .ok ip1 → ip1.m = ea.m → f.opd = storedValue i s)

/-! ### Reset, the host, and runs: `spec/70_reset_and_hazards.md` -/

/-- The reset state, and H_RESET from every state. RUN = 0 and memory are the source's; ACC, X, IP, XZ, Z, OVF are the
spec's decision D6 and FAULT its decision D9 (log entry 6); the model's own counter goes on (log entry 4). -/
def Obligations.ResetLeavesResetValues : Prop :=
  State.reset.run = false ∧ (∀ a, memRead State.reset.mem a = .plus 0) ∧
  State.reset.acc = .plus 0 ∧ State.reset.x = .plus 0 ∧ State.reset.ip = .plus 0 ∧
  State.reset.xz = false ∧ State.reset.z = false ∧ State.reset.ovf = false ∧ State.reset.fault = none ∧
  ∀ s : State, transact .reset s = .next ({ State.reset with draws := s.draws }, .done)

/-- H_LOAD writes its pairs in order, so that the last pair to a cell wins, and changes nothing but memory; while
RUN = 1 it is refused and changes nothing. The gate is the spec's own decision D11, the cell values D18 (log
entry 12). -/
def Obligations.HostLoadLastPairWins : Prop :=
  ∀ (s : State) (pairs : List (Value × Value)), s.mem.wf = true →
    (s.run = true → transact (.load pairs) s = .next (s, .refused)) ∧
    (s.run = false → ∃ m, transact (.load pairs) s = .next ({ s with mem := m }, .done) ∧
      ∀ a, memRead m a = ((pairs.reverse.find? (fun p => p.1.m == a.m)).map Prod.snd).getD (memRead s.mem a))

/-- H_SET_IP, H_START and H_STEP: when each is accepted and all it changes; H_STEP reports whether RUN is now 0, and
FAULT. Their gates are the spec's own decisions D7, D8, D11 and D19 (log entry 12). -/
def Obligations.HostControlOperations : Prop :=
  ∀ s : State,
    (∀ a, s.run = false → s.fault = none → transact (.setIp a) s = .next ({ s with ip := a }, .done)) ∧
    (∀ a, s.run = true ∨ s.fault ≠ none → transact (.setIp a) s = .next (s, .refused)) ∧
    (s.fault = none → transact .start s = .next ({ s with run := true }, .done)) ∧
    (s.fault ≠ none → transact .start s = .next (s, .done)) ∧
    (∀ t, step s = .next t → transact .step s = .next (t, .stepped (!t.run) (faultCode t.fault)))

/-- What H_TRACE and H_OBSERVE show, and that they and H_DUMP change nothing. H_TRACE shows IP, ACC and X in hex, the
magnitudes only; H_OBSERVE shows any one element, the sign of a Value included (D17); a dump is refused exactly where a
bound is negative or the bounds are crossed (D14), and its text over an empty range is empty (log entries 12, 13). -/
def Obligations.HostReadsChangeNothing : Prop :=
  ∀ s : State,
    transact .trace s = .next (s, .trace (hex s.ip) (hex s.acc) (hex s.x)) ∧
    (∀ v : Value, hex v = hex ⟨!v.s, v.m⟩) ∧
    transact (.observe .acc) s = .next (s, .observed (.value ⟨s.acc.s, s.acc.m⟩)) ∧
    transact (.observe .x) s = .next (s, .observed (.value ⟨s.x.s, s.x.m⟩)) ∧
    transact (.observe .ip) s = .next (s, .observed (.value ⟨s.ip.s, s.ip.m⟩)) ∧
    transact (.observe .run) s = .next (s, .observed (.flag s.run)) ∧
    transact (.observe .xz) s = .next (s, .observed (.flag s.xz)) ∧
    transact (.observe .z) s = .next (s, .observed (.flag s.z)) ∧
    transact (.observe .ovf) s = .next (s, .observed (.flag s.ovf)) ∧
    transact (.observe .fault) s = .next (s, .observed (.cause (faultCode s.fault))) ∧
    (∀ i : BitVec 8, transact (.observe (.cell i)) s = .next (s, .observed (.value (memRead s.mem (.plus i))))) ∧
    (∀ (first last : Value) (p : Bool), first.s = true ∨ last.s = true ∨ last.m < first.m →
      transact (.dump first last p) s = .next (s, .refused)) ∧
    (∀ (first last : Value) (p : Bool), first.s = false → last.s = false → first.m ≤ last.m →
      ∃ t, transact (.dump first last p) s = .next (s, .text t)) ∧
    (∀ (a : BitVec 8) (p : Bool), transact (.dump (.plus a) (.plus a) p) s = .next (s, .text []))

/-- The hex text of a Value: `0x` and two lower-case hex digits of the magnitude, the sign not shown; and the
printable range. The digits' form is derived in the spec (R153) from a source example. -/
def Obligations.HexShowsMagnitude : Prop :=
  ∀ v : Value,
    (∃ d e, ['0', '1', '2', '3', '4', '5', '6', '7', '8', '9', 'a', 'b', 'c', 'd', 'e', 'f'][v.m.toNat / 16]? = some d ∧
      ['0', '1', '2', '3', '4', '5', '6', '7', '8', '9', 'a', 'b', 'c', 'd', 'e', 'f'][v.m.toNat % 16]? = some e ∧
      hex v = ['0', 'x', d, e]) ∧
    (isPrintable v = true ↔ 0x20 ≤ v.m.toNat ∧ v.m.toNat ≤ 0x7e)

/-- The text of a dump: a line for every address from the first up to but excluding the last, joined by newlines, the
address and the cell in hex with one space between; a printable dump adds the open separator and the character of that
ASCII code, or the open placeholder. The separator and the placeholder are open parameters (D20), and the character is
the spec's one point of general knowledge (X14); log entry 13. -/
def Obligations.DumpText : Prop :=
  ∀ (s : State) (m n : BitVec 8) (printable : Bool), m ≤ n →
    transact (.dump (.plus m) (.plus n) printable) s = .next (s, .text (List.intercalate ['\n']
      (((List.range 256).filter (fun k => m.toNat ≤ k ∧ k < n.toNat)).map (fun k =>
        hex (.plus (BitVec.ofNat 8 k)) ++ ' ' :: hex (memRead s.mem (.plus (BitVec.ofNat 8 k))) ++
          if printable then Config.dumpCol3Sep ++
            [if isPrintable (memRead s.mem (.plus (BitVec.ofNat 8 k)))
             then Char.ofNat (memRead s.mem (.plus (BitVec.ofNat 8 k))).m.toNat else Config.dumpPlaceholder]
          else []))))

/-- The boot order: H_RESET, H_LOAD, H_SET_IP and H_START from any state leave the reset state with the loaded cells,
IP at the entry and RUN = 1, ready to step. The order is the spec's own (D7, D23; log entry 11). -/
def Obligations.BootSequenceReadiesProgram : Prop :=
  ∀ (s : State) (pairs : List (Value × Value)) (entry : Value), ∃ t,
    transactAll [.reset, .load pairs, .setIp entry, .start] s = .next t ∧
    t.run = true ∧ t.fault = none ∧ t.ip = entry ∧ t.mem = loadPairs State.reset.mem pairs ∧
    t.acc = .plus 0 ∧ t.x = .plus 0 ∧ t.xz = false ∧ t.z = false ∧ t.ovf = false

/-- FAULTED is left only by H_RESET: in a state that meets the invariant, every other host operation leaves a faulted
state as it is. The spec's own decisions D9, D11 and D19. -/
def Obligations.FaultedUntilReset : Prop :=
  ∀ (s : State) (op : HostOp), s.Inv → s.fault ≠ none → op ≠ .reset → ∃ r, transact op s = .next (s, r)

/-- The reset state meets the invariant. -/
def Obligations.ResetMeetsInvariant : Prop := State.reset.Inv

/-- Every step keeps the invariant, on this hardware and under every value of `ALU_NEG`: the memory stays in canonical
form, and a fault is recorded only with RUN = 1. -/
def Obligations.StepKeepsInvariant : Prop :=
  ∀ s t : State, s.Inv → (step s = .next t → t.Inv) ∧ (∀ mode, stepWith mode s = .next t → t.Inv)

/-- Every sequence of host operations, steps among them, from a state that meets the invariant is performed to its end
and keeps the invariant, on this hardware and under `SignedResult`; under `ALU_NEG` = `Fault` it may instead end in the
refusal of a negative total, and in no other way. -/
def Obligations.TransactionsKeepInvariant : Prop :=
  ∀ (ops : List HostOp) (s : State), s.Inv →
    (∃ t, transactAll ops s = .next t ∧ t.Inv) ∧ (∃ t, transactAllWith .signedResult ops s = .next t ∧ t.Inv) ∧
    ((∃ t, transactAllWith .fault ops s = .next t ∧ t.Inv) ∨ transactAllWith .fault ops s = .refused .negativeTotal)

/-- A run ends HALTED, or ends FAULTED, or never ends, and no two of these. Derived from the spec's list of the ends of
a run (R176) and from D8 and D9. -/
def Obligations.RunsEndInOneWay : Prop :=
  ∀ s : State, (EndsHalted s ∨ EndsFaulted s ∨ NeverEnds s) ∧ ¬(EndsHalted s ∧ EndsFaulted s) ∧
    ¬(EndsHalted s ∧ NeverEnds s) ∧ ¬(EndsFaulted s ∧ NeverEnds s)

/-- The instruction the host's probe names runs as the very next step, from every state whose memory is in canonical
form: the model's own loading helper (log entry 11). -/
def Obligations.PlacedWordRunsNext : Prop :=
  ∀ (s : State) (nbits w : Nat) (i : Instr), s.mem.wf = true → decodeTableWord nbits w = some i →
    ∃ ip, sv ip = sv (s.withFetchWord nbits w).ip + 2 ∧
      step (s.withFetchWord nbits w) = exec i { s.withFetchWord nbits w with ip := ip }

/-- A line of the spec's assembly notation at an address assembles to its two cells there, and H_LOAD of them makes the
core decode the line's instruction at that address. The notation is the spec's own (D15, log entry 18). -/
def Obligations.AssembledLineDecodes : Prop :=
  ∀ (p : BitVec 8) (mn : Mnemonic) (opd : Value) (m : Memory), m.wf = true → p.toNat < 255 →
    ∃ image, assemble [.insn (some p) mn (some opd)] = some image ∧
      decode (memRead (loadPairs m image) (.plus p)) (memRead (loadPairs m image) (.plus (p + 1))) =
        .ok (mn.withOperand opd)

/-! ### The parameter `ALU_NEG`: `spec/00_scope.md` R6, `spec/41_accumulator.md` R101 -/

/-- The machine takes `ALU_NEG` as an argument. With this hardware's value it is this hardware's machine. Under every
value a step runs the decoded instruction, an instruction that hands the ALU no negative total acts as on this hardware,
and one that does writes `mk` of the total with both flags 0 or is `RangeError` below -255 (`SignedResult`), or has no
meaning (`Fault`). Every run that the machine with `Fault` completes is the run of every other value. `ALU_NEG` and its
value are the spec's own decision D5 (log entry 5). -/
def Obligations.EveryAluNegHasItsMachine : Prop :=
  (∀ s : State, stepWith aluNeg s = step s ∧ stepWith .absTotal s = step s ∧
    ∀ op, transactWith aluNeg op s = transact op s) ∧
  (∀ (mode : Config.AluNeg) (s : State) (i : Instr) (ip1 ip2 : Value), s.run = true → s.fault = none →
    inc s.ip 1 = .ok ip1 → inc ip1 1 = .ok ip2 → decode (memRead s.mem s.ip) (memRead s.mem ip1) = .ok i →
    stepWith mode s = execWith mode i { s with ip := ip2 }) ∧
  (∀ (mode : Config.AluNeg) (i : Instr) (s : State),
    (∀ n, aluTotal i s = some n → 0 ≤ n) → execWith mode i s = exec i s) ∧
  (∀ (i : Instr) (s : State) (n : Int), aluTotal i s = some n → n < 0 →
    (-255 ≤ n → ∃ r, mkValue n = .ok r ∧
      execWith .signedResult i s = .next { s with acc := r, z := false, ovf := false }) ∧
    (n < -255 → execWith .signedResult i s = .next (takeFault .range s)) ∧
    execWith .fault i s = .refused .negativeTotal) ∧
  (∀ (k : Nat) (s t : State), Host.Core.run (coreWith .fault) k s = .next t →
    Host.Core.run core k s = .next t ∧ ∀ mode, Host.Core.run (coreWith mode) k s = .next t)
end

