-- ==== Sys2Proof/Laws/Memory.lean ====
section
/-! SUPPORT. The memory list: every operation keeps the canonical form, and reading after writing, by cell number. -/

namespace Sys2Proof.Machine

/-- A canonical memory stays one under a smaller lower bound. -/
theorem Memory.wfFrom_mono {m : Memory} {lo lo' : Nat} (h : m.wfFrom lo = true) (hl : lo' ≤ lo) :
    m.wfFrom lo' = true := by
  cases m with
  | nil => rfl
  | cons p rest =>
    simp only [Memory.wfFrom, Bool.and_eq_true, decide_eq_true_eq] at h ⊢
    obtain ⟨⟨⟨h1, h2⟩, h3⟩, h4⟩ := h
    exact ⟨⟨⟨by omega, h2⟩, h3⟩, h4⟩

/-- Writing at or above the lower bound keeps the canonical form. -/
theorem Memory.write_wfFrom {m : Memory} {lo k : Nat} (v : Value) (h : m.wfFrom lo = true) (hk : lo ≤ k)
    (hs : k < memSize) : (m.write k v).wfFrom lo = true := by
  induction m generalizing lo with
  | nil =>
    simp only [Memory.write]
    split <;> simp_all [Memory.wfFrom]
  | cons p rest ih =>
    obtain ⟨a, w⟩ := p
    simp only [Memory.wfFrom, Bool.and_eq_true, decide_eq_true_eq] at h
    obtain ⟨⟨⟨h1, h2⟩, h3⟩, h4⟩ := h
    simp only [Memory.write]
    split
    · split
      · simp_all [Memory.wfFrom]
      · simp [Memory.wfFrom, *]
    · split
      · subst k
        split
        · exact Memory.wfFrom_mono h4 (by omega)
        · simp [Memory.wfFrom, *]
      · simp [Memory.wfFrom, *]
        exact ih h4 (by omega)

/-- `MemWrite` keeps the canonical form. -/
theorem memWrite_wf {m : Memory} (a v : Value) (h : m.wf = true) : (memWrite m a v).wf = true :=
  Memory.write_wfFrom v h (by omega) (by have := a.m.isLt; simp only [memSize]; omega)

/-- An indexed write keeps the canonical form. -/
theorem idxWrite_wf {m m' : Memory} {a v : Value} {i : Option Value} (h : m.wf = true)
    (hw : idxWrite m a i v = .ok m') : m'.wf = true := by
  unfold idxWrite at hw
  cases hr : resolve a i with
  | error c => rw [hr] at hw; simp [Except.map] at hw
  | ok ea =>
    rw [hr] at hw; simp only [Except.map, Except.ok.injEq] at hw
    exact hw ▸ memWrite_wf ea v h

/-- H_LOAD's writes keep the canonical form. -/
theorem loadPairs_wf {m : Memory} (pairs : List (Value × Value)) (h : m.wf = true) :
    (loadPairs m pairs).wf = true := by
  unfold loadPairs
  induction pairs generalizing m with
  | nil => exact h
  | cons p rest ih => exact ih (memWrite_wf p.1 p.2 h)

/-- Reset memory is canonical. -/
theorem reset_mem_wf : State.reset.mem.wf = true := rfl

/-- Below the lower bound nothing is listed. -/
theorem Memory.read_below {m : Memory} {lo k : Nat} (h : m.wfFrom lo = true) (hk : k < lo) :
    m.read k = unsetCell := by
  induction m generalizing lo with
  | nil => rfl
  | cons p rest ih =>
    obtain ⟨a, w⟩ := p
    simp only [Memory.wfFrom, Bool.and_eq_true, decide_eq_true_eq] at h
    obtain ⟨⟨⟨h1, h2⟩, h3⟩, h4⟩ := h
    simp only [Memory.read]
    rw [if_neg (by omega)]
    exact ih h4 (by omega)

/-- Reading a cell after a write, from a canonical memory. -/
theorem Memory.read_write {m : Memory} {lo : Nat} (h : m.wfFrom lo = true) (k j : Nat) (v : Value) :
    (m.write k v).read j = if j = k then v else m.read j := by
  induction m generalizing lo with
  | nil =>
    simp only [Memory.write]
    split <;> simp [Memory.read, *, eq_comm]
  | cons p rest ih =>
    obtain ⟨a, w⟩ := p
    simp only [Memory.wfFrom, Bool.and_eq_true, decide_eq_true_eq] at h
    obtain ⟨⟨⟨h1, h2⟩, h3⟩, h4⟩ := h
    have hb : ∀ k, k ≤ a → Memory.read rest k = unsetCell := fun k hk => Memory.read_below h4 (by omega)
    simp only [Memory.write]
    split
    · have hk := hb k (by omega)
      split
      · by_cases hj : j = k
        · subst hj; simp only [Memory.read]; rw [if_neg (by omega), hk]; simp_all
        · simp [hj]
      · simp only [Memory.read]
        by_cases hj : j = k
        · simp [hj]
        · rw [if_neg (by omega), if_neg hj]
    · split
      · subst k
        have ha := hb a (by omega)
        split
        · by_cases hj : j = a
          · subst hj; rw [ha]; simp_all
          · simp only [Memory.read]; rw [if_neg hj, if_neg (by omega)]
        · simp only [Memory.read]
          by_cases hj : j = a
          · simp [hj]
          · rw [if_neg (by omega), if_neg hj, if_neg (by omega)]
      · simp only [Memory.read]
        by_cases hj : a = j
        · rw [if_pos hj, if_neg (by omega), if_pos hj]
        · rw [if_neg hj, if_neg hj, ih h4]

/-- `MemRead` after `MemWrite`, by magnitudes as numbers. -/
theorem memRead_memWrite {m : Memory} (h : m.wf = true) (a v b : Value) :
    memRead (memWrite m a v) b = if b.m.toNat = a.m.toNat then v else memRead m b :=
  Memory.read_write h _ _ v

end Sys2Proof.Machine
end

