-- ==== Sys2Proof/Laws/State.lean ====
section
/-! SUPPORT. One lemma per field per update of `State`, so that no later proof unfolds a record update. -/

namespace Sys2Proof.Machine

section
variable (s : State) (v : Value)
@[simp] theorem State.setAcc_acc : (s.setAcc v).acc = v := rfl
@[simp] theorem State.setAcc_x : (s.setAcc v).x = s.x := rfl
@[simp] theorem State.setAcc_ip : (s.setAcc v).ip = s.ip := rfl
@[simp] theorem State.setAcc_run : (s.setAcc v).run = s.run := rfl
@[simp] theorem State.setAcc_xz : (s.setAcc v).xz = s.xz := rfl
@[simp] theorem State.setAcc_z : (s.setAcc v).z = s.z := rfl
@[simp] theorem State.setAcc_ovf : (s.setAcc v).ovf = s.ovf := rfl
@[simp] theorem State.setAcc_fault : (s.setAcc v).fault = s.fault := rfl
@[simp] theorem State.setAcc_mem : (s.setAcc v).mem = s.mem := rfl
@[simp] theorem State.setAcc_draws : (s.setAcc v).draws = s.draws := rfl
end

section
variable (s : State) (v : Value)
@[simp] theorem State.setX_acc : (s.setX v).acc = s.acc := rfl
@[simp] theorem State.setX_x : (s.setX v).x = v := rfl
@[simp] theorem State.setX_ip : (s.setX v).ip = s.ip := rfl
@[simp] theorem State.setX_run : (s.setX v).run = s.run := rfl
@[simp] theorem State.setX_xz : (s.setX v).xz = s.xz := rfl
@[simp] theorem State.setX_z : (s.setX v).z = s.z := rfl
@[simp] theorem State.setX_ovf : (s.setX v).ovf = s.ovf := rfl
@[simp] theorem State.setX_fault : (s.setX v).fault = s.fault := rfl
@[simp] theorem State.setX_mem : (s.setX v).mem = s.mem := rfl
@[simp] theorem State.setX_draws : (s.setX v).draws = s.draws := rfl
end

section
variable (s : State) (v : Value)
@[simp] theorem State.setIp_acc : (s.setIp v).acc = s.acc := rfl
@[simp] theorem State.setIp_x : (s.setIp v).x = s.x := rfl
@[simp] theorem State.setIp_ip : (s.setIp v).ip = v := rfl
@[simp] theorem State.setIp_run : (s.setIp v).run = s.run := rfl
@[simp] theorem State.setIp_xz : (s.setIp v).xz = s.xz := rfl
@[simp] theorem State.setIp_z : (s.setIp v).z = s.z := rfl
@[simp] theorem State.setIp_ovf : (s.setIp v).ovf = s.ovf := rfl
@[simp] theorem State.setIp_fault : (s.setIp v).fault = s.fault := rfl
@[simp] theorem State.setIp_mem : (s.setIp v).mem = s.mem := rfl
@[simp] theorem State.setIp_draws : (s.setIp v).draws = s.draws := rfl
end

section
variable (s : State) (b : Bool)
@[simp] theorem State.setRun_acc : (s.setRun b).acc = s.acc := rfl
@[simp] theorem State.setRun_x : (s.setRun b).x = s.x := rfl
@[simp] theorem State.setRun_ip : (s.setRun b).ip = s.ip := rfl
@[simp] theorem State.setRun_run : (s.setRun b).run = b := rfl
@[simp] theorem State.setRun_xz : (s.setRun b).xz = s.xz := rfl
@[simp] theorem State.setRun_z : (s.setRun b).z = s.z := rfl
@[simp] theorem State.setRun_ovf : (s.setRun b).ovf = s.ovf := rfl
@[simp] theorem State.setRun_fault : (s.setRun b).fault = s.fault := rfl
@[simp] theorem State.setRun_mem : (s.setRun b).mem = s.mem := rfl
@[simp] theorem State.setRun_draws : (s.setRun b).draws = s.draws := rfl
end

section
variable (s : State) (b : Bool)
@[simp] theorem State.setXz_acc : (s.setXz b).acc = s.acc := rfl
@[simp] theorem State.setXz_x : (s.setXz b).x = s.x := rfl
@[simp] theorem State.setXz_ip : (s.setXz b).ip = s.ip := rfl
@[simp] theorem State.setXz_run : (s.setXz b).run = s.run := rfl
@[simp] theorem State.setXz_xz : (s.setXz b).xz = b := rfl
@[simp] theorem State.setXz_z : (s.setXz b).z = s.z := rfl
@[simp] theorem State.setXz_ovf : (s.setXz b).ovf = s.ovf := rfl
@[simp] theorem State.setXz_fault : (s.setXz b).fault = s.fault := rfl
@[simp] theorem State.setXz_mem : (s.setXz b).mem = s.mem := rfl
@[simp] theorem State.setXz_draws : (s.setXz b).draws = s.draws := rfl
end

section
variable (s : State) (p q : Bool)
@[simp] theorem State.setAlu_acc : (s.setAlu p q).acc = s.acc := rfl
@[simp] theorem State.setAlu_x : (s.setAlu p q).x = s.x := rfl
@[simp] theorem State.setAlu_ip : (s.setAlu p q).ip = s.ip := rfl
@[simp] theorem State.setAlu_run : (s.setAlu p q).run = s.run := rfl
@[simp] theorem State.setAlu_xz : (s.setAlu p q).xz = s.xz := rfl
@[simp] theorem State.setAlu_z : (s.setAlu p q).z = p := rfl
@[simp] theorem State.setAlu_ovf : (s.setAlu p q).ovf = q := rfl
@[simp] theorem State.setAlu_fault : (s.setAlu p q).fault = s.fault := rfl
@[simp] theorem State.setAlu_mem : (s.setAlu p q).mem = s.mem := rfl
@[simp] theorem State.setAlu_draws : (s.setAlu p q).draws = s.draws := rfl
end

section
variable (s : State) (c : Option Cause)
@[simp] theorem State.setFault_acc : (s.setFault c).acc = s.acc := rfl
@[simp] theorem State.setFault_x : (s.setFault c).x = s.x := rfl
@[simp] theorem State.setFault_ip : (s.setFault c).ip = s.ip := rfl
@[simp] theorem State.setFault_run : (s.setFault c).run = s.run := rfl
@[simp] theorem State.setFault_xz : (s.setFault c).xz = s.xz := rfl
@[simp] theorem State.setFault_z : (s.setFault c).z = s.z := rfl
@[simp] theorem State.setFault_ovf : (s.setFault c).ovf = s.ovf := rfl
@[simp] theorem State.setFault_fault : (s.setFault c).fault = c := rfl
@[simp] theorem State.setFault_mem : (s.setFault c).mem = s.mem := rfl
@[simp] theorem State.setFault_draws : (s.setFault c).draws = s.draws := rfl
end

section
variable (s : State) (m : Memory)
@[simp] theorem State.setMem_acc : (s.setMem m).acc = s.acc := rfl
@[simp] theorem State.setMem_x : (s.setMem m).x = s.x := rfl
@[simp] theorem State.setMem_ip : (s.setMem m).ip = s.ip := rfl
@[simp] theorem State.setMem_run : (s.setMem m).run = s.run := rfl
@[simp] theorem State.setMem_xz : (s.setMem m).xz = s.xz := rfl
@[simp] theorem State.setMem_z : (s.setMem m).z = s.z := rfl
@[simp] theorem State.setMem_ovf : (s.setMem m).ovf = s.ovf := rfl
@[simp] theorem State.setMem_fault : (s.setMem m).fault = s.fault := rfl
@[simp] theorem State.setMem_mem : (s.setMem m).mem = m := rfl
@[simp] theorem State.setMem_draws : (s.setMem m).draws = s.draws := rfl
end

section
variable (c : Cause) (s : State)
@[simp] theorem takeFault_acc : (takeFault c s).acc = s.acc := rfl
@[simp] theorem takeFault_x : (takeFault c s).x = s.x := rfl
@[simp] theorem takeFault_run : (takeFault c s).run = s.run := rfl
@[simp] theorem takeFault_xz : (takeFault c s).xz = s.xz := rfl
@[simp] theorem takeFault_mem : (takeFault c s).mem = s.mem := rfl
@[simp] theorem takeFault_fault : (takeFault c s).fault = some c := rfl
@[simp] theorem takeFault_draws : (takeFault c s).draws = s.draws + 1 := rfl
/-- IP in the middle of a step is not seen in the faulted state. -/
@[simp] theorem takeFault_setIp (v : Value) : takeFault c (s.setIp v) = takeFault c s := rfl
end

end Sys2Proof.Machine
end

