-- ==== Sys2Proof/Laws/Value.lean ====
section
/-! SUPPORT. What `sv`, `mkValue`, `inc` and `vAdd` can answer. -/

namespace Sys2Proof.Machine

@[simp] theorem sv_plus (m : BitVec 8) : sv (.plus m) = m.toNat := rfl

@[simp] theorem sv_minus (m : BitVec 8) : sv (.minus m) = -(m.toNat : Int) := rfl

theorem sv_le (v : Value) : sv v ≤ 255 := by
  have := v.m.isLt
  unfold sv; split <;> omega

theorem le_sv (v : Value) : -255 ≤ sv v := by
  have := v.m.isLt
  unfold sv; split <;> omega

/-- Negation flips the signed integer. -/
@[simp] theorem sv_neg (v : Value) : sv (neg v) = -sv v := by
  obtain ⟨b, m⟩ := v
  cases b <;> simp [sv, neg]

theorem natAbs_sv (v : Value) : (sv v).natAbs = v.m.toNat := by
  unfold sv; split <;> omega

/-- Two Values with the same magnitude bits, as numbers, have the same magnitude. -/
theorem magnitude_ext {v w : Value} (h : v.m.toNat = w.m.toNat) : v.m = w.m := BitVec.eq_of_toNat_eq h

/-- Everything `mkValue` can answer when it succeeds. -/
theorem mkValue_ok {n : Int} {v : Value} (h : mkValue n = .ok v) :
    sv v = n ∧ v ≠ .minus 0 ∧ v.s = decide (n < 0) := by
  unfold mkValue at h
  split at h <;> rename_i h' <;> split at h <;> simp only [Except.ok.injEq, reduceCtorEq] at h
  · subst h
    refine ⟨?_, ?_, by simp [*]⟩
    · simp [sv]; omega
    · intro h0
      have h1 := congrArg (fun v : Value => v.m.toNat) h0
      simp at h1; omega
  · subst h
    refine ⟨?_, by simp, by simpa using h'⟩
    simp [sv]; omega

/-- Everything `mkValue` can answer when it raises. -/
theorem mkValue_error {n : Int} {c : Cause} (h : mkValue n = .error c) : c = .range ∧ (n < -255 ∨ 255 < n) := by
  unfold mkValue at h
  split at h <;> split at h <;> simp only [Except.error.injEq, reduceCtorEq] at h <;> exact ⟨h.symm, by omega⟩

/-- `mkValue` raises on an integer out of range. -/
theorem mkValue_out_of_range {n : Int} (h : n < -255 ∨ 255 < n) : mkValue n = .error .range := by
  unfold mkValue
  split <;> rw [if_pos (by omega)]

/-- `mkValue` answers a Value on an integer in range. -/
theorem mkValue_in_range {n : Int} (h : -255 ≤ n ∧ n ≤ 255) : ∃ v, mkValue n = .ok v ∧ sv v = n := by
  cases hn : mkValue n with
  | ok v => exact ⟨v, rfl, (mkValue_ok hn).1⟩
  | error c => have := (mkValue_error hn).2; omega

/-- `VAdd` is `mk` of the sum where no carry occurs. -/
theorem vAdd_no_carry {a b : Value} (h : -255 ≤ sv a + sv b ∧ sv a + sv b ≤ 255) :
    ∃ r, vAdd a b = .ok (r, false) ∧ mkValue (sv a + sv b) = .ok r := by
  obtain ⟨r, hr, -⟩ := mkValue_in_range h
  refine ⟨r, ?_, hr⟩
  simp only [vAdd]
  rw [if_neg (by omega), if_neg (by omega), hr]; rfl

/-- `VAdd` sets the carry where the sum is out of range, and never raises. -/
theorem vAdd_carry {a b : Value} (h : sv a + sv b < -255 ∨ 255 < sv a + sv b) :
    ∃ r, vAdd a b = .ok (r, true) := by
  have h1 := sv_le a; have h2 := sv_le b; have h3 := le_sv a; have h4 := le_sv b
  simp only [vAdd]
  split
  · obtain ⟨r, hr, -⟩ := mkValue_in_range (n := sv a + sv b - 256) (by omega)
    exact ⟨r, by rw [hr]; rfl⟩
  · rw [if_pos (by omega)]
    obtain ⟨r, hr, -⟩ := mkValue_in_range (n := sv a + sv b + 256) (by omega)
    exact ⟨r, by rw [hr]; rfl⟩

end Sys2Proof.Machine
end

