-- ==== Sys2Proof/Laws/Ops.lean ====
section
/-! SUPPORT. What each shared operation can answer, said once. -/

namespace Sys2Proof.Machine

@[simp] theorem attempt_ok {α : Type} (v : α) (s : State) (k : α → Out) : attempt (.ok v) s k = k v := rfl

@[simp] theorem attempt_error {α : Type} (c : Cause) (s : State) (k : α → Out) :
    attempt (.error c) s k = .next (takeFault c s) := rfl

@[simp] theorem raise_eq (c : Cause) (s : State) : raise c s = .next (takeFault c s) := rfl

@[simp] theorem idle_eq (s : State) : idle s = .next s := rfl

/-- An `attempt` that answers a next state either went on or took the fault. -/
theorem attempt_next {α : Type} {r : Except Cause α} {s t : State} {k : α → Out} (h : attempt r s k = .next t) :
    (∃ v, r = .ok v ∧ k v = .next t) ∨ (∃ c, r = .error c ∧ t = takeFault c s) := by
  cases r with
  | ok v => exact .inl ⟨v, rfl, h⟩
  | error c =>
    simp only [attempt_error, Host.Outcome.next.injEq] at h
    exact .inr ⟨c, rfl, h.symm⟩

/-- `canStep`, spelled out. -/
theorem canStep_iff (s : State) : canStep s = true ↔ s.run = true ∧ s.fault = none := by
  simp [canStep]

/-- Everything a fetch that succeeds can be. -/
theorem fetch_ok {s : State} {f : Fetched} (h : fetch s = .ok f) :
    ∃ ip1, inc s.ip 1 = .ok ip1 ∧ inc ip1 1 = .ok f.ip ∧ f.op = memRead s.mem s.ip ∧ f.opd = memRead s.mem ip1 ∧
      sv f.ip = sv s.ip + 2 := by
  unfold fetch at h
  split at h
  · simp at h
  · rename_i ip1 h1
    split at h
    · simp at h
    · rename_i ip2 h2
      simp only [Except.ok.injEq] at h
      subst h
      refine ⟨ip1, h1, h2, rfl, rfl, ?_⟩
      have e1 := (mkValue_ok h1).1
      have e2 := (mkValue_ok h2).1
      dsimp only; omega

/-- A fetch below 254 succeeds. -/
theorem fetch_in_range {s : State} (h : sv s.ip ≤ 253) : ∃ f, fetch s = .ok f := by
  have hl := le_sv s.ip
  obtain ⟨ip1, h1, e1⟩ := mkValue_in_range (n := sv s.ip + 1) (by omega)
  obtain ⟨ip2, h2, -⟩ := mkValue_in_range (n := sv ip1 + 1) (by omega)
  exact ⟨⟨memRead s.mem s.ip, memRead s.mem ip1, ip2⟩, by simp only [fetch, inc, h1, h2]⟩

/-- A fetch at 254 or 255 raises `RangeError`. -/
theorem fetch_out_of_range {s : State} (h : 254 ≤ sv s.ip) : fetch s = .error .range := by
  unfold fetch
  cases h1 : inc s.ip 1 with
  | error c => rw [(mkValue_error h1).1]
  | ok ip1 =>
    have e1 := (mkValue_ok h1).1
    have h2 : inc ip1 1 = .error .range := mkValue_out_of_range (by omega)
    simp only [h2]

/-- A skip in range moves IP by two. -/
theorem skip_in_range {s : State} (h : sv s.ip + 2 ≤ 255) :
    ∃ ip, inc s.ip 2 = .ok ip ∧ sv ip = sv s.ip + 2 ∧ skip s = .next (s.setIp ip) := by
  have hl := le_sv s.ip
  obtain ⟨ip, h1, e1⟩ := mkValue_in_range (n := sv s.ip + 2) (by omega)
  exact ⟨ip, h1, e1, by simp only [skip, inc, h1, attempt_ok]⟩

/-- A skip past 255 takes `RangeError`. -/
theorem skip_out_of_range {s : State} (h : 255 < sv s.ip + 2) : skip s = .next (takeFault .range s) := by
  have h1 : inc s.ip 2 = .error .range := mkValue_out_of_range (.inr h)
  simp only [skip, h1, attempt_error]

/-- A resolution without carry is `mk` of the sum. -/
theorem resolve_in_range {a i : Value} (h : -255 ≤ sv a + sv i ∧ sv a + sv i ≤ 255) :
    ∃ ea, resolve a (some i) = .ok ea ∧ mkValue (sv a + sv i) = .ok ea := by
  obtain ⟨r, h1, h2⟩ := vAdd_no_carry h
  exact ⟨r, by simp [resolve, h1], h2⟩

/-- A resolution with carry raises `IndexCarryError`. -/
theorem resolve_out_of_range {a i : Value} (h : sv a + sv i < -255 ∨ 255 < sv a + sv i) :
    resolve a (some i) = .error .indexCarry := by
  obtain ⟨r, h1⟩ := vAdd_carry h
  simp [resolve, h1]

/-- On this hardware the ALU always answers a result, an unsigned one. -/
theorem aluAdd_done (a b : Value) :
    aluAdd a b = aluUnsigned (sv a + sv b).natAbs := by
  simp only [aluAdd, aluAddWith, aluNeg]
  split <;> rfl

end Sys2Proof.Machine
end

