-- ==== Sys2Proof/Laws/Step.lean ====
section
/-! SUPPORT. What one step can be, said once, for every execution of the instructions and then for this hardware's. -/

namespace Sys2Proof.Machine

/-- A step while HALTED or FAULTED changes nothing. -/
theorem stepBy_idle {execute : Instr → State → Out} {s : State} (h : canStep s = false) :
    stepBy execute s = .next s := by
  simp [stepBy, h]

/-- A running step whose fetch succeeds is its dispatch. -/
theorem stepBy_fetched {execute : Instr → State → Out} {s : State} {f : Fetched} (hs : canStep s = true)
    (hf : fetch s = .ok f) : stepBy execute s = dispatchBy execute f.op f.opd (s.setIp f.ip) := by
  simp [stepBy, hs, stepRunningBy, hf]

/-- A running step whose fetch fails takes the fault. -/
theorem stepBy_fetch_fault {execute : Instr → State → Out} {s : State} {c : Cause} (hs : canStep s = true)
    (hf : fetch s = .error c) : stepBy execute s = .next (takeFault c s) := by
  simp [stepBy, hs, stepRunningBy, hf]

/-- Dispatch of an opcode cell that selects nothing. -/
theorem dispatch_unrecognized {execute : Instr → State → Out} {op opd : Value} (s : State) (h : decodeOp op = none) :
    dispatchBy execute op opd s = .next (takeFault .unrecognizedOpcode s) := by
  simp [dispatchBy, decode, h]

/-- Dispatch of an opcode cell that selects a mnemonic. -/
theorem dispatch_recognized {execute : Instr → State → Out} {op opd : Value} {mn : Mnemonic} (s : State)
    (h : decodeOp op = some mn) : dispatchBy execute op opd s = execute (mn.withOperand opd) s := by
  simp [dispatchBy, decode, h]

/-- Everything one step can be: nothing, a fetch fault, an unrecognized opcode, or the execution of the decoded
instruction with IP behind it. Which of the four does not depend on the execution. -/
theorem stepBy_cases (s : State) :
    (canStep s = false ∧ ∀ execute, stepBy execute s = .next s) ∨
    (canStep s = true ∧ 254 ≤ sv s.ip ∧ ∀ execute, stepBy execute s = .next (takeFault .range s)) ∨
    (∃ f, canStep s = true ∧ fetch s = .ok f ∧ decodeOp f.op = none ∧
      ∀ execute, stepBy execute s = .next (takeFault .unrecognizedOpcode s)) ∨
    (∃ f mn, canStep s = true ∧ fetch s = .ok f ∧ decodeOp f.op = some mn ∧
      ∀ execute, stepBy execute s = execute (mn.withOperand f.opd) (s.setIp f.ip)) := by
  cases hs : canStep s with
  | false => exact .inl ⟨rfl, fun _ => stepBy_idle hs⟩
  | true =>
    refine .inr ?_
    by_cases hr : sv s.ip ≤ 253
    · obtain ⟨f, hf⟩ := fetch_in_range hr
      refine .inr ?_
      cases hd : decodeOp f.op with
      | none =>
        exact .inl ⟨f, rfl, hf, hd, fun _ => by
          rw [stepBy_fetched hs hf, dispatch_unrecognized _ hd, takeFault_setIp]⟩
      | some mn =>
        exact .inr ⟨f, mn, rfl, hf, hd, fun _ => by rw [stepBy_fetched hs hf, dispatch_recognized _ hd]⟩
    · have hf := fetch_out_of_range (s := s) (by omega)
      exact .inl ⟨rfl, by omega, fun _ => stepBy_fetch_fault hs hf⟩

/-- A step of this hardware while HALTED or FAULTED changes nothing. -/
theorem step_idle {s : State} (h : canStep s = false) : step s = .next s := stepBy_idle h

/-- A running step of this hardware whose fetch succeeds is its dispatch. -/
theorem step_fetched {s : State} {f : Fetched} (hs : canStep s = true) (hf : fetch s = .ok f) :
    step s = dispatchBy exec f.op f.opd (s.setIp f.ip) := stepBy_fetched hs hf

/-- A running step of this hardware whose fetch fails takes the fault. -/
theorem step_fetch_fault {s : State} {c : Cause} (hs : canStep s = true) (hf : fetch s = .error c) :
    step s = .next (takeFault c s) := stepBy_fetch_fault hs hf

/-- Everything one step of this hardware can be. -/
theorem step_cases (s : State) :
    (canStep s = false ∧ step s = .next s) ∨
    (canStep s = true ∧ 254 ≤ sv s.ip ∧ step s = .next (takeFault .range s)) ∨
    (∃ f, canStep s = true ∧ fetch s = .ok f ∧ decodeOp f.op = none ∧
      step s = .next (takeFault .unrecognizedOpcode s)) ∨
    (∃ f mn, canStep s = true ∧ fetch s = .ok f ∧ decodeOp f.op = some mn ∧
      step s = exec (mn.withOperand f.opd) (s.setIp f.ip)) := by
  rcases stepBy_cases s with ⟨h, e⟩ | ⟨h, h', e⟩ | ⟨f, h, h', h'', e⟩ | ⟨f, mn, h, h', h'', e⟩
  · exact .inl ⟨h, e exec⟩
  · exact .inr (.inl ⟨h, h', e exec⟩)
  · exact .inr (.inr (.inl ⟨f, h, h', h'', e exec⟩))
  · exact .inr (.inr (.inr ⟨f, mn, h, h', h'', e exec⟩))

end Sys2Proof.Machine
end

