-- ==== Sys2Proof/Laws/Exec.lean ====
section
/-! SUPPORT. What an executed instruction can do, said once for all 14. -/

namespace Sys2Proof.Machine

/-- An ALU result of this hardware always goes to ACC with its flags. -/
theorem aluToAcc_aluAdd (a b : Value) (s : State) :
    ∃ v p q, aluAdd a b = .done v p q ∧ aluToAcc (aluAdd a b) s = .next ((s.setAcc v).setAlu p q) :=
  ⟨_, _, _, aluAdd_done a b, by rw [aluAdd_done]; rfl⟩

/-- A skip moves IP or takes `RangeError`. -/
theorem skip_next (s : State) : (∃ v, skip s = .next (s.setIp v)) ∨ skip s = .next (takeFault .range s) := by
  by_cases h : sv s.ip + 2 ≤ 255
  · obtain ⟨v, -, -, hv⟩ := skip_in_range h; exact .inl ⟨v, hv⟩
  · exact .inr (skip_out_of_range (by omega))

/-- Everything executing an instruction can be. It always answers a next state, and that is a fault taken, an IP moved,
nothing, RUN cleared, an ALU result, a loaded ACC, a loaded X, a decremented X, or one cell stored. -/
theorem exec_effect (i : Instr) (s : State) : ∃ t, exec i s = .next t ∧
    ((∃ c, t = takeFault c s ∧ i.mnemonic ∈ [Mnemonic.sza, .szx, .dcx, .addx, .ldax, .stax]) ∨
     (∃ v, t = s.setIp v ∧ i.mnemonic ∈ [Mnemonic.jmp, .sza, .szx]) ∨
     (t = s ∧ i.mnemonic ∈ [Mnemonic.sza, .szx]) ∨
     (t = s.setRun false ∧ i.mnemonic = .halt) ∨
     (∃ v p q, t = (s.setAcc v).setAlu p q ∧ i.mnemonic ∈ [Mnemonic.add, .sub, .addx]) ∨
     (∃ v, t = s.setAcc v ∧ i.mnemonic ∈ [Mnemonic.lda, .ldax]) ∨
     (∃ v, t = s.setX v ∧ i.mnemonic = .ldx) ∨
     (∃ v b, t = (s.setX v).setXz b ∧ i.mnemonic = .dcx) ∨
     (∃ ea, storeAddress i s = some ea ∧ t = s.setMem (memWrite s.mem ea (storedValue i s)) ∧
       i.mnemonic ∈ [Mnemonic.sta, .stx, .stax])) := by
  cases i with
  | halt o => exact ⟨_, rfl, by simp [Instr.mnemonic]⟩
  | jmp a => exact ⟨_, rfl, .inr (.inl ⟨a, rfl, by simp [Instr.mnemonic]⟩)⟩
  | lda a => exact ⟨_, rfl, .inr (.inr (.inr (.inr (.inr (.inl ⟨_, rfl, by simp [Instr.mnemonic]⟩)))))⟩
  | ldx a => exact ⟨_, rfl, .inr (.inr (.inr (.inr (.inr (.inr (.inl ⟨_, rfl, rfl⟩))))))⟩
  | sta a =>
    exact ⟨_, rfl, .inr (.inr (.inr (.inr (.inr (.inr (.inr (.inr ⟨a, rfl, rfl, by simp [Instr.mnemonic]⟩)))))))⟩
  | stx a =>
    exact ⟨_, rfl, .inr (.inr (.inr (.inr (.inr (.inr (.inr (.inr ⟨a, rfl, rfl, by simp [Instr.mnemonic]⟩)))))))⟩
  | add a =>
    obtain ⟨v, p, q, -, h⟩ := aluToAcc_aluAdd s.acc (directRead s a) s
    exact ⟨_, h, .inr (.inr (.inr (.inr (.inl ⟨v, p, q, rfl, by simp [Instr.mnemonic]⟩))))⟩
  | sub a =>
    obtain ⟨v, p, q, -, h⟩ := aluToAcc_aluAdd s.acc (neg (directRead s a)) s
    exact ⟨_, h, .inr (.inr (.inr (.inr (.inl ⟨v, p, q, rfl, by simp [Instr.mnemonic]⟩))))⟩
  | sza o =>
    cases hz : s.z with
    | false => exact ⟨s, by simp [exec, execSza, hz], by simp [Instr.mnemonic]⟩
    | true =>
      have e : exec (.sza o) s = skip s := by simp [exec, execSza, hz]
      rcases skip_next s with ⟨v, hv⟩ | hv
      · exact ⟨_, e.trans hv, .inr (.inl ⟨v, rfl, by simp [Instr.mnemonic]⟩)⟩
      · exact ⟨_, e.trans hv, .inl ⟨_, rfl, by simp [Instr.mnemonic]⟩⟩
  | szx o =>
    cases hz : s.xz with
    | false => exact ⟨s, by simp [exec, execSzx, hz], by simp [Instr.mnemonic]⟩
    | true =>
      have e : exec (.szx o) s = skip s := by simp [exec, execSzx, hz]
      rcases skip_next s with ⟨v, hv⟩ | hv
      · exact ⟨_, e.trans hv, .inr (.inl ⟨v, rfl, by simp [Instr.mnemonic]⟩)⟩
      · exact ⟨_, e.trans hv, .inl ⟨_, rfl, by simp [Instr.mnemonic]⟩⟩
  | dcx o =>
    cases hx : inc s.x (-1) with
    | error c => exact ⟨_, by simp only [exec, execDcx, hx, attempt_error], .inl ⟨c, rfl, by simp [Instr.mnemonic]⟩⟩
    | ok x =>
      exact ⟨(s.setX x).setXz (indexZero x), by simp only [exec, execDcx, hx, attempt_ok],
        .inr (.inr (.inr (.inr (.inr (.inr (.inr (.inl ⟨x, _, rfl, rfl⟩)))))))⟩
  | addx a =>
    cases hx : indexedRead s a with
    | error c =>
      exact ⟨_, by simp only [exec, execAddx, execAddxWith, hx, attempt_error], .inl ⟨c, rfl, by simp [Instr.mnemonic]⟩⟩
    | ok b =>
      obtain ⟨v, p, q, -, h⟩ := aluToAcc_aluAdd s.acc b s
      refine ⟨_, ?_, .inr (.inr (.inr (.inr (.inl ⟨v, p, q, rfl, by simp [Instr.mnemonic]⟩))))⟩
      simp only [exec, execAddx, execAddxWith, hx, attempt_ok]
      exact h
  | ldax a =>
    cases hx : indexedRead s a with
    | error c => exact ⟨_, by simp only [exec, execLdax, hx, attempt_error], .inl ⟨c, rfl, by simp [Instr.mnemonic]⟩⟩
    | ok b =>
      exact ⟨_, by simp only [exec, execLdax, hx, attempt_ok],
        .inr (.inr (.inr (.inr (.inr (.inl ⟨b, rfl, by simp [Instr.mnemonic]⟩)))))⟩
  | stax a =>
    cases hr : resolve a (some s.x) with
    | error c =>
      have hw : indexedWrite s a s.acc = .error c := by simp [indexedWrite, idxWrite, hr, Except.map]
      exact ⟨_, by simp only [exec, execStax, hw, attempt_error], .inl ⟨c, rfl, by simp [Instr.mnemonic]⟩⟩
    | ok ea =>
      have hw : indexedWrite s a s.acc = .ok (memWrite s.mem ea s.acc) := by
        simp [indexedWrite, idxWrite, hr, Except.map]
      exact ⟨s.setMem (memWrite s.mem ea s.acc), by simp only [exec, execStax, hw, attempt_ok],
        .inr (.inr (.inr (.inr (.inr (.inr (.inr (.inr
          ⟨ea, by simp [storeAddress, hr, Except.toOption], rfl, by simp [Instr.mnemonic]⟩)))))))⟩

/-- A step always answers a next state. -/
theorem step_answers (s : State) : ∃ t, step s = .next t := by
  rcases step_cases s with ⟨-, e⟩ | ⟨-, -, e⟩ | ⟨-, -, -, -, e⟩ | ⟨f, mn, -, -, -, e⟩
  · exact ⟨_, e⟩
  · exact ⟨_, e⟩
  · exact ⟨_, e⟩
  · obtain ⟨t, ht, -⟩ := exec_effect (mn.withOperand f.opd) (s.setIp f.ip)
    exact ⟨t, e.trans ht⟩

/-- One more step of a run is its first step, then the rest. -/
theorem run_succ {s t : State} (k : Nat) (h : step s = .next t) :
    Host.Core.run core (k + 1) s = Host.Core.run core k t := by
  have e := Host.Core.run.eq_2 core s k
  rw [show core.step s = .next t from h] at e
  exact e

end Sys2Proof.Machine
end

