-- ==== Sys2Proof/Laws/AluParameter.lean ====
section
/-! SUPPORT. What the machine under a value of `ALU_NEG` can do, said once. -/

namespace Sys2Proof.Machine

/-- With this hardware's `ALU_NEG` an instruction is this hardware's. -/
@[simp] theorem execWith_absTotal (i : Instr) (s : State) : execWith .absTotal i s = exec i s := by
  cases i <;> rfl

/-- With this hardware's `ALU_NEG` a step is this hardware's. -/
@[simp] theorem stepWith_absTotal (s : State) : stepWith .absTotal s = step s := by
  have h : execWith .absTotal = exec := funext fun i => funext fun s => execWith_absTotal i s
  rw [stepWith, step, h]

/-- A total of 0 or more is read alike by every value. -/
theorem aluAddWith_nonneg (mode : Config.AluNeg) {a b : Value} (h : 0 ≤ sv a + sv b) :
    aluAddWith mode a b = aluAdd a b := by
  simp only [aluAdd, aluAddWith]
  rw [if_neg (by omega), if_neg (by omega)]

/-- A negative total under `SignedResult`. -/
theorem aluAddWith_signed {a b : Value} (h : sv a + sv b < 0) :
    aluAddWith .signedResult a b = aluSigned (sv a + sv b) := by
  simp only [aluAddWith, if_pos h]

/-- A negative total under `Fault`. -/
theorem aluAddWith_fault {a b : Value} (h : sv a + sv b < 0) : aluAddWith .fault a b = .noMeaning := by
  simp only [aluAddWith, if_pos h]

/-- Every ALU instruction under a value of `ALU_NEG` hands one pair to the ALU, or faults before it as on this
hardware; the others are this hardware's. -/
theorem execWith_cases (i : Instr) (s : State) :
    (aluTotal i s = none ∧ ∀ mode, execWith mode i s = exec i s) ∨
    (∃ b, aluTotal i s = some (sv s.acc + sv b) ∧
      ∀ mode, execWith mode i s = aluToAcc (aluAddWith mode s.acc b) s) := by
  cases i with
  | add a => exact .inr ⟨memRead s.mem a, rfl, fun _ => rfl⟩
  | sub a =>
    refine .inr ⟨neg (memRead s.mem a), ?_, fun _ => rfl⟩
    simp only [aluTotal, sv_neg, Int.sub_eq_add_neg]
  | addx a =>
    cases hr : resolve a (some s.x) with
    | error c =>
      have hx : indexedRead s a = .error c := by simp [indexedRead, idxRead, hr, Except.map]
      exact .inl ⟨by simp [aluTotal, hr, Except.toOption], fun _ => by
        simp only [execWith, exec, execAddx, execAddxWith, hx, attempt_error]⟩
    | ok ea =>
      have hx : indexedRead s a = .ok (memRead s.mem ea) := by simp [indexedRead, idxRead, hr, Except.map]
      exact .inr ⟨memRead s.mem ea, by simp [aluTotal, hr, Except.toOption], fun _ => by
        simp only [execWith, execAddxWith, hx, attempt_ok]⟩
  | _ => exact .inl ⟨rfl, fun _ => rfl⟩

/-- Everything an instruction can be under a value of `ALU_NEG`: what it is on this hardware, an ACC with the flags
written, a `RangeError` taken, or (`Fault` alone) the refusal of a negative total. -/
theorem execWith_effect (mode : Config.AluNeg) (i : Instr) (s : State) :
    execWith mode i s = exec i s ∨
    (mode = .signedResult ∧ ((∃ v, execWith mode i s = .next ((s.setAcc v).setAlu false false)) ∨
      execWith mode i s = .next (takeFault .range s))) ∨
    (mode = .fault ∧ execWith mode i s = .refused .negativeTotal) := by
  rcases execWith_cases i s with ⟨-, h⟩ | ⟨b, -, h⟩
  · exact .inl (h mode)
  · by_cases hn : 0 ≤ sv s.acc + sv b
    · refine .inl ?_
      rw [h mode, ← execWith_absTotal, h .absTotal, aluAddWith_nonneg mode hn, aluAddWith_nonneg _ hn]
    · have hn' : sv s.acc + sv b < 0 := by omega
      cases mode with
      | absTotal => exact .inl (execWith_absTotal i s)
      | fault => exact .inr (.inr ⟨rfl, by rw [h, aluAddWith_fault hn']; rfl⟩)
      | signedResult =>
        refine .inr (.inl ⟨rfl, ?_⟩)
        rw [h, aluAddWith_signed hn', aluSigned]
        cases hm : mkValue (sv s.acc + sv b) with
        | ok v => exact .inl ⟨v, rfl⟩
        | error c =>
          obtain ⟨rfl, -⟩ := mkValue_error hm
          exact .inr rfl

/-- A step under a value of `ALU_NEG` is this hardware's, or executes an instruction with IP behind it. -/
theorem stepWith_cases (s : State) :
    (∀ mode, stepWith mode s = step s) ∨
    (∃ i ip, ∀ mode, stepWith mode s = execWith mode i (s.setIp ip)) := by
  rcases stepBy_cases s with ⟨-, e⟩ | ⟨-, -, e⟩ | ⟨-, -, -, -, e⟩ | ⟨f, mn, -, -, -, e⟩
  · exact .inl fun mode => (e (execWith mode)).trans (e exec).symm
  · exact .inl fun mode => (e (execWith mode)).trans (e exec).symm
  · exact .inl fun mode => (e (execWith mode)).trans (e exec).symm
  · exact .inr ⟨mn.withOperand f.opd, f.ip, fun mode => e (execWith mode)⟩

end Sys2Proof.Machine
end

