-- ==== Sys2Proof/Laws/Encoding.lean ====
section
/-! SUPPORT. The packed notation bit by bit: cells to word, word to cells, and the table's mask. -/

namespace Sys2Proof

theorem getLsbD_cellBits (v : Value) (i : Nat) :
    (cellBits v).getLsbD i = if i < 8 then v.m.getLsbD i else (decide (i = 8) && v.s) := by
  have h : (cellBits v).getLsbD i = if i < 8 then v.m.getLsbD i else (BitVec.ofBool v.s).getLsbD (i - 8) :=
    BitVec.getLsbD_append
  rw [h, BitVec.getLsbD_ofBool]
  split
  · rfl
  · congr 1; simp only [decide_eq_decide]; omega

theorem getLsbD_wordOfCells (op opd : Value) (i : Nat) :
    (wordOfCells op opd).getLsbD i =
      if i < 9 then (cellBits opd).getLsbD i else (cellBits op).getLsbD (i - 9) :=
  BitVec.getLsbD_append

/-- Packing two cells and unpacking the word gives the cells. -/
theorem cellsOfWord_wordOfCells (op opd : Value) : cellsOfWord (wordOfCells op opd) = (op, opd) := by
  have e1 : (cellsOfWord (wordOfCells op opd)).1 = op := by
    obtain ⟨s, m⟩ := op
    simp only [cellsOfWord, Value.mk.injEq]
    refine ⟨by rw [getLsbD_wordOfCells, if_neg (by omega), getLsbD_cellBits]; rfl,
      BitVec.eq_of_getLsbD_eq fun i hi => ?_⟩
    rw [BitVec.getLsbD_extractLsb', getLsbD_wordOfCells, if_neg (by omega), getLsbD_cellBits, if_pos (by omega)]
    simp [hi]
  have e2 : (cellsOfWord (wordOfCells op opd)).2 = opd := by
    obtain ⟨s, m⟩ := opd
    simp only [cellsOfWord, Value.mk.injEq]
    refine ⟨by rw [getLsbD_wordOfCells, getLsbD_cellBits]; rfl, BitVec.eq_of_getLsbD_eq fun i hi => ?_⟩
    rw [BitVec.getLsbD_extractLsb', getLsbD_wordOfCells, if_pos (by omega), getLsbD_cellBits, if_pos (by omega)]
    simp [hi]
  exact Prod.ext e1 e2

/-- Unpacking a word and packing the cells gives the word. -/
theorem wordOfCells_cellsOfWord (w : BitVec 18) : wordOfCells (cellsOfWord w).1 (cellsOfWord w).2 = w := by
  refine BitVec.eq_of_getLsbD_eq fun i hi => ?_
  rw [getLsbD_wordOfCells, getLsbD_cellBits, getLsbD_cellBits]
  simp only [cellsOfWord, BitVec.getLsbD_extractLsb']
  by_cases h1 : i < 8
  · simp [h1, show i < 9 by omega]
  by_cases h2 : i = 8
  · simp [h2]
  by_cases h3 : i < 17
  · simp [show ¬ i < 9 by omega, show i - 9 < 8 by omega, show 9 + (i - 9) = i by omega]
  · have h4 : i = 17 := by omega
    simp [h4]

end Sys2Proof
end

