-- ==== Sys2Proof/Laws/PerInstr.lean ====
section
/-! SUPPORT. Families of statements about every instruction as syntax, one lemma per constructor of `Instr`. -/

namespace Sys2Proof.Laws

/-- The opcode cell the encoder writes selects the instruction's own mnemonic, the operand cell is the operand
unchanged, and the two make the instruction again (`spec/30_encoding.md` R73, R74, R75). -/
def OpcodeCell.Statement (i : Instr) : Prop :=
  decodeOp (encode i).1 = some i.mnemonic ∧ (encode i).2 = i.operand ∧ i.mnemonic.withOperand i.operand = i

theorem OpcodeCell.halt (v : Value) : OpcodeCell.Statement (.halt v) := ⟨rfl, rfl, rfl⟩
theorem OpcodeCell.add (v : Value) : OpcodeCell.Statement (.add v) := ⟨rfl, rfl, rfl⟩
theorem OpcodeCell.lda (v : Value) : OpcodeCell.Statement (.lda v) := ⟨rfl, rfl, rfl⟩
theorem OpcodeCell.sta (v : Value) : OpcodeCell.Statement (.sta v) := ⟨rfl, rfl, rfl⟩
theorem OpcodeCell.jmp (v : Value) : OpcodeCell.Statement (.jmp v) := ⟨rfl, rfl, rfl⟩
theorem OpcodeCell.sza (v : Value) : OpcodeCell.Statement (.sza v) := ⟨rfl, rfl, rfl⟩
theorem OpcodeCell.sub (v : Value) : OpcodeCell.Statement (.sub v) := ⟨rfl, rfl, rfl⟩
theorem OpcodeCell.ldx (v : Value) : OpcodeCell.Statement (.ldx v) := ⟨rfl, rfl, rfl⟩
theorem OpcodeCell.stx (v : Value) : OpcodeCell.Statement (.stx v) := ⟨rfl, rfl, rfl⟩
theorem OpcodeCell.szx (v : Value) : OpcodeCell.Statement (.szx v) := ⟨rfl, rfl, rfl⟩
theorem OpcodeCell.dcx (v : Value) : OpcodeCell.Statement (.dcx v) := ⟨rfl, rfl, rfl⟩
theorem OpcodeCell.addx (v : Value) : OpcodeCell.Statement (.addx v) := ⟨rfl, rfl, rfl⟩
theorem OpcodeCell.ldax (v : Value) : OpcodeCell.Statement (.ldax v) := ⟨rfl, rfl, rfl⟩
theorem OpcodeCell.stax (v : Value) : OpcodeCell.Statement (.stax v) := ⟨rfl, rfl, rfl⟩

end Sys2Proof.Laws
end

