-- ==== Sys2Proof/Tests/Slice0.lean ====
section
/-! SUPPORT. The model's own tests, each from a vector of `spec/95_test_vectors.md` or worked out from the rule named,
and for every obligation with hypotheses a witness that meets them. Facts on fixed values: no statement for the
provers. -/

namespace Sys2Proof.Tests

open Sys2Proof Sys2Proof.Machine

/-- A running state at `ip` over a memory. -/
def ready (ip : Value) (mem : Memory) : State := { State.reset with ip := ip, run := true, mem := mem }

/-- The next state of an outcome. -/
def nextOf : Out → Option State
  | .next t => some t
  | .fault _ => none
  | .refused _ => none

/-- About to run P8's `SUB 0x11` on M[0x11] = `+5`, with ACC = `+n`. -/
def subState (n : BitVec 8) : State :=
  { ready (.plus 0x22) [(0x11, .plus 5), (0x22, .plus 0x25), (0x23, .plus 0x11)] with acc := .plus n }

/-! ### Well-formedness: the checks refuse -/

theorem test_wf_word_too_wide : wellFormedWord (2 ^ 18 + 0x00200) = false := by decide
theorem test_wf_word_no_row : wellFormedWord 0x00000 = false ∧ wellFormedWord 0x20200 = false := by decide
theorem test_wf_cells_too_wide : wellFormedCells 0x201 0 = false ∧ wellFormedCells 1 0x200 = false := by decide
theorem test_wf_accepts : wellFormedWord 0x04411 = true ∧ wellFormedCells 1 0x1FF = true := by decide

/-! ### Decoding: words written out bit by bit from the table's encodings -/

theorem test_decode_control :
    decodeWord 0b000000001101111111 = .ok (.halt (.minus 0x7F)) ∧
    decodeWord 0b000100011100000110 = .ok (.jmp (.minus 0x06)) ∧
    decodeWord 0b000100100000000000 = .ok (.sza (.plus 0x00)) ∧
    decodeWord 0b000101000100000000 = .ok (.szx (.minus 0x00)) := by decide
theorem test_decode_accumulator :
    decodeWord 0b000100000000010001 = .ok (.add (.plus 0x11)) ∧
    decodeWord 0b000100001000010000 = .ok (.lda (.plus 0x10)) ∧
    decodeWord 0b000100010100010010 = .ok (.sta (.minus 0x12)) ∧
    decodeWord 0b000100101000010011 = .ok (.sub (.plus 0x13)) := by decide
theorem test_decode_index :
    decodeWord 0b000100110000010000 = .ok (.ldx (.plus 0x10)) ∧
    decodeWord 0b000100111000010100 = .ok (.stx (.plus 0x14)) ∧
    decodeWord 0b000101001011111111 = .ok (.dcx (.plus 0xFF)) := by decide
theorem test_decode_indexed :
    decodeWord 0b001000000001010000 = .ok (.addx (.plus 0x50)) ∧
    decodeWord 0b001000001011110000 = .ok (.ldax (.plus 0xF0)) ∧
    decodeWord 0b001000010000010000 = .ok (.stax (.plus 0x10)) := by decide
/-- V100, V101, V102. -/
theorem test_decode_illegal :
    decodeOp (.plus 0x00) = none ∧ decodeOp (.plus 0x02) = none ∧ decodeOp (.plus 0x2A) = none ∧
    decodeOp (.plus 0x3F) = none ∧ decodeOp (.plus 0x43) = none ∧ decodeOp (.minus 0x01) = none ∧
    decodeOp (.minus 0x20) = none := by decide
/-- R76: 498 of the 512 opcode cells are illegal. -/
theorem test_decode_illegal_count :
    (((List.range 512).filter
      (fun n => decodeOp ⟨decide (256 ≤ n), BitVec.ofNat 8 n⟩ == none)).length) = 498 := by decide +kernel

/-! ### Values and the ALU -/

/-- V2, V3, V4. -/
theorem test_inc : inc (.plus 0xFF) 1 = .error .range ∧ inc (.minus 0x01) 1 = .ok (.plus 0) ∧
    inc (.plus 0x00) (-1) = .ok (.minus 0x01) := by decide
/-- V7. -/
theorem test_vadd : vAdd (.minus 0xFF) (.minus 0x01) = .ok (.plus 0, true) ∧
    vAdd (.plus 0x80) (.minus 0x90) = .ok (.minus 0x10, false) := by decide
/-- V14, V19, V21. -/
theorem test_alu_add : aluAdd (.plus 0x80) (.plus 0x80) = .done (.plus 0) true true ∧
    aluAdd (.plus 0x03) (.minus 0x05) = .done (.plus 0x02) false false ∧
    aluAdd (.minus 0x80) (.minus 0x90) = .done (.plus 0x10) false true := by decide
/-- V19, V21 under `SignedResult`. -/
theorem test_alu_signed : aluAddWith .signedResult (.plus 0x03) (.minus 0x05) = .done (.minus 0x02) false false ∧
    aluAddWith .signedResult (.minus 0x80) (.minus 0x90) = .raised .range := by decide
/-- V29, V30. -/
theorem test_alu_sub : aluSub (.minus 0x80) (.plus 0x90) = .done (.plus 0x10) false true ∧
    aluSub (.plus 0xFF) (.minus 0xFF) = .done (.plus 0xFE) false true := by decide

/-! ### One step of each instruction -/

/-- V80. -/
theorem test_halt : (nextOf (step (ready (.plus 0x26) [(0x26, .plus 0x01)]))).map (fun t => (t.run, t.ip)) =
    some (false, .plus 0x28) := by decide
/-- V91. -/
theorem test_jmp : (nextOf (step (ready (.plus 0x20) [(0x20, .plus 0x23), (0x21, .minus 0x06)]))).map State.ip =
    some (.minus 0x06) := by decide
/-- V82, V94. -/
theorem test_sza_skips : (nextOf (step { ready (.plus 0x24) [(0x24, .plus 0x24)] with z := true })).map State.ip =
    some (.plus 0x28) := by decide
/-- V89. -/
theorem test_sza_range : (nextOf (step { ready (.plus 0xFC) [(0xFC, .plus 0x24)] with z := true })).map State.fault =
    some (some .range) := by decide
/-- V84. -/
theorem test_szx_skips : (nextOf (step { ready (.plus 0x28) [(0x28, .plus 0x28)] with xz := true })).map State.ip =
    some (.plus 0x2C) := by decide
/-- V85. -/
theorem test_szx_no_skip : (nextOf (step { ready (.plus 0x28) [(0x28, .plus 0x28)] with z := true })).map State.ip =
    some (.plus 0x2A) := by decide
/-- R103's example with the wrap of V15. -/
theorem test_add : (nextOf (exec (.add (.plus 0x11)) { ready (.plus 0) [(0x11, .plus 0xFF)] with acc := .plus 0xFF })).map
    (fun t => (t.acc, t.z, t.ovf)) = some (.plus 0xFE, false, true) := by decide
/-- V47, V33: the read uses the magnitude and Z is not written. -/
theorem test_lda : (nextOf (exec (.lda (.minus 0x90)) { ready (.plus 0) [(0x90, .plus 0x2A)] with z := true })).map
    (fun t => (t.acc, t.z)) = some (.plus 0x2A, true) := by decide
/-- V43, V44. -/
theorem test_sta : (nextOf (exec (.sta (.minus 0x12)) { ready (.plus 0) [] with acc := .minus 0x07 })).map State.mem =
    some [(0x12, .minus 0x07)] := by decide
/-- R39: storing `+0` leaves the canonical form without an entry. -/
theorem test_sta_zero : (nextOf (exec (.sta (.plus 0x12)) (ready (.plus 0) [(0x12, .plus 0x07)]))).map State.mem =
    some [] := by decide
/-- V26, V32. -/
theorem test_sub : (nextOf (exec (.sub (.plus 0x13)) { ready (.plus 0) [(0x13, .plus 0x05)] with acc := .plus 0x03 })).map
    (fun t => (t.acc, t.z, t.ovf, t.mem)) = some (.plus 0x02, false, false, [(0x13, .plus 0x05)]) := by decide
/-- V45. -/
theorem test_ldx : (nextOf (exec (.ldx (.plus 0x10)) { ready (.plus 0) [(0x10, .plus 0x03)] with xz := true })).map
    (fun t => (t.x, t.xz)) = some (.plus 0x03, true) := by decide
/-- V46. -/
theorem test_stx : (nextOf (exec (.stx (.plus 0x14)) { ready (.plus 0) [] with x := .minus 0x01, acc := .plus 9 })).map
    State.mem = some [(0x14, .minus 0x01)] := by decide
/-- V50. -/
theorem test_dcx_zero : (nextOf (exec (.dcx (.plus 0)) { ready (.plus 0) [] with x := .plus 0x01 })).map
    (fun t => (t.x, t.xz)) = some (.plus 0x00, true) := by decide
/-- V56. -/
theorem test_dcx_range : (nextOf (exec (.dcx (.plus 0)) { ready (.plus 0) [] with x := .minus 0xFF, xz := true })).map
    (fun t => (t.x, t.xz, t.fault)) = some (.minus 0xFF, true, some .range) := by decide
/-- V75: an ALU wrap is no index carry. -/
theorem test_addx : (nextOf (exec (.addx (.plus 0x10))
    { ready (.plus 0) [(0x11, .plus 0x01)] with acc := .plus 0xFF, x := .plus 0x01 })).map
    (fun t => (t.acc, t.z, t.ovf, t.fault)) = some (.plus 0x00, true, true, none) := by decide
/-- V71. -/
theorem test_addx_carry : (nextOf (exec (.addx (.plus 0xF0)) { ready (.plus 0) [] with acc := .plus 1, x := .plus 0x20 })).map
    (fun t => (t.acc, t.fault)) = some (.plus 1, some .indexCarry) := by decide
/-- V63, V64: the signed sum, and a negative address. -/
theorem test_ldax : (nextOf (exec (.ldax (.plus 0x10)) { ready (.plus 0) [(0x10, .plus 7)] with x := .minus 0x20 })).map
    State.acc = some (.plus 7) ∧
    (nextOf (exec (.ldax (.plus 0xF0)) { ready (.plus 0) [(0xD0, .plus 7)] with x := .minus 0x20 })).map State.acc =
      some (.plus 7) := by decide
/-- V73. -/
theorem test_stax : (nextOf (exec (.stax (.plus 0x10)) { ready (.plus 0) [] with acc := .plus 7, x := .plus 5 })).map
    State.mem = some [(0x15, .plus 7)] := by decide
/-- V74. -/
theorem test_stax_carry : (nextOf (exec (.stax (.plus 0xF0)) { ready (.plus 0) [] with acc := .plus 7, x := .plus 0x20 })).map
    (fun t => (t.mem, t.fault)) = some ([], some .indexCarry) := by decide

/-! ### The step -/

/-- V86, V87, V88: the top of memory. -/
theorem test_step_top :
    (nextOf (step (ready (.plus 0xFD) [(0xFD, .plus 0x01)]))).map (fun t => (t.run, t.ip)) = some (false, .plus 0xFF) ∧
    (nextOf (step (ready (.plus 0xFE) [(0xFE, .plus 0x01)]))).map (fun t => (t.run, t.fault)) =
      some (true, some .range) ∧
    (nextOf (step (ready (.plus 0xFF) [(0xFF, .plus 0x01)]))).map State.fault = some (some .range) := by decide
/-- V93: from IP `-1` the opcode is at cell 1 and the operand at cell 0. -/
theorem test_step_negative_ip :
    (nextOf (step (ready (.minus 0x01) [(0, .plus 0x33), (1, .plus 0x23)]))).map State.ip = some (.plus 0x33) := by decide
/-- V100, V104. -/
theorem test_step_illegal :
    (nextOf (step (ready (.plus 0x20) []))).map State.fault = some (some .unrecognizedOpcode) ∧
    (nextOf (step (ready (.plus 0xFE) []))).map State.fault = some (some .range) := by decide
/-- The host's probe of a row, from reset. -/
theorem test_step_with_fetch_word :
    (nextOf (step (State.reset.withFetchWord 24 0x00200))).map (fun t => (t.run, t.ip, t.fault)) =
      some (false, .plus 2, none) := by decide

/-! ### The values of `ALU_NEG` -/

/-- P8's SUB under its two readings, and under `Fault`, which gives the step no meaning (R101). -/
theorem test_step_alu_neg :
    (nextOf (stepWith .absTotal (subState 3))).map State.acc = some (.plus 0x02) ∧
    (nextOf (stepWith .signedResult (subState 3))).map (fun t => (t.acc, t.z, t.ovf, t.ip)) =
      some (.minus 0x02, false, false, .plus 0x24) ∧
    stepWith .fault (subState 3) = .refused .negativeTotal ∧
    (nextOf (stepWith .fault (subState 9))).map State.acc = some (.plus 0x04) := ⟨by decide, by decide, rfl, by decide⟩
/-- R141: under `SignedResult` a total below -255 is `RangeError`, and ACC is unchanged. -/
theorem test_step_signed_range :
    (nextOf (stepWith .signedResult { subState 0 with acc := .minus 0xFE })).map (fun t => (t.fault, t.acc)) =
      some (some .range, .minus 0xFE) := by decide

/-! ### The host -/

/-- V110, V113. -/
theorem test_host_faulted :
    (transact .start { ready (.plus 0) [] with fault := some .indexCarry } =
      .next ({ ready (.plus 0) [] with fault := some .indexCarry }, .done)) ∧
    transact (.setIp (.plus 0x20)) { ready (.plus 0) [] with fault := some .indexCarry } =
      .next ({ ready (.plus 0) [] with fault := some .indexCarry }, .refused) := ⟨rfl, rfl⟩
/-- V115. -/
theorem test_host_trace :
    hTrace { State.reset with acc := .minus 0x05, x := .plus 0x1F, ip := .plus 0x20 } =
      .trace ['0', 'x', '2', '0'] ['0', 'x', '0', '5'] ['0', 'x', '1', 'f'] := by decide
/-- W11, V117, V118. -/
theorem test_host_dump :
    hDump (.plus 0x1F) (.plus 0x21) false State.reset =
      .text (['0', 'x', '1', 'f', ' ', '0', 'x', '0', '0', '\n'] ++ ['0', 'x', '2', '0', ' ', '0', 'x', '0', '0']) ∧
    hDump (.plus 0x22) (.plus 0x1F) false State.reset = .refused ∧
    hDump (.plus 0x20) (.plus 0x20) false State.reset = .text [] := by decide
/-- The first two lines of P1 assemble to its listing. -/
theorem test_assemble :
    assemble [.cell 0x10 (.plus 2), .insn (some 0x20) .lda (some (.plus 0x10)), .insn none .halt none] =
      some [(.plus 0x10, .plus 2), (.plus 0x20, .plus 0x21), (.plus 0x21, .plus 0x10), (.plus 0x22, .plus 0x01),
        (.plus 0x23, .plus 0x00)] := by decide

/-! ### Witnesses: each obligation's hypotheses are met, clause by clause, at the edges of their ranges -/

/-- A state with both ALU flags and XZ set, at IP `ip`. -/
def flagged (ip : Value) : State := { ready ip [] with z := true, xz := true, ovf := true }

theorem witness_ValueFromInteger :
    mkValue (-255) = .ok (.minus 255) ∧ mkValue (-1) = .ok (.minus 1) ∧ mkValue 0 = .ok (.plus 0) ∧
    mkValue 255 = .ok (.plus 255) ∧ mkValue (-256) = .error .range ∧ mkValue 256 = .error .range := by decide
theorem witness_IncrementNeverWraps : inc (.plus 0xFE) 1 = .ok (.plus 0xFF) := by decide
theorem witness_ValueAddWithCarry :
    sv (.plus 0xFF) + sv (.plus 1) > 255 ∧ sv (.minus 0xFF) + sv (.minus 1) < -255 ∧
    (-255 ≤ sv (.plus 0xFF) + sv (.plus 0) ∧ sv (.plus 0xFF) + sv (.plus 0) ≤ 255) ∧
    (-255 ≤ sv (.minus 0xFF) + sv (.minus 0) ∧ sv (.minus 0xFF) + sv (.minus 0) ≤ 255) := by decide
theorem witness_WriteStoresOneCell : Memory.wf [(0x00, .minus 0), (0x10, .plus 2), (0xFF, .minus 1)] = true := by decide
theorem witness_ReadUsesMagnitude : (Value.plus 0x12).m = (Value.minus 0x12).m := rfl
theorem witness_CanonicalMemoriesAreEqual :
    Memory.wf [(0x10, .plus 2)] = true ∧ Memory.wf (memWrite [] (.minus 0x10) (.plus 2)) = true ∧
    ∀ a, memRead [(0x10, .plus 2)] a = memRead (memWrite [] (.minus 0x10) (.plus 2)) a := ⟨rfl, rfl, fun _ => rfl⟩
theorem witness_ResolveFaultsOnCarry :
    sv (.plus 0xF0) + sv (.plus 0x10) = 256 ∧ sv (.minus 0x80) + sv (.minus 0x80) = -256 ∧
    sv (.plus 0xF0) + sv (.plus 0x0F) = 255 ∧ sv (.minus 0x80) + sv (.minus 0x7F) = -255 := by decide
theorem witness_IndexedAccessAgreesWithPlain :
    Memory.wf [(0x10, .plus 2)] = true ∧ resolve (.plus 0xF0) (some (.plus 0x10)) = .error .indexCarry ∧
    resolve (.plus 0xF0) (some (.plus 0x0F)) = .ok (.plus 0xFF) ∧ resolve (.plus 0xF0) none = .ok (.plus 0xF0) ∧
    sv (.plus 0xF0) + sv (.plus 0x0F) ≤ 255 := by decide
theorem witness_DecodeEncodeAgree :
    (Instr.sta (.minus 0x12)).wellFormed = true ∧ decode (.plus 0x22) (.minus 0x12) = .ok (.sta (.minus 0x12)) ∧
    decodeWord 0x04512 = .ok (.sta (.minus 0x12)) := by decide
theorem witness_DecoderMatchesOpcodeTable :
    (⟨.halt, 0x3FE00, 0x00200⟩ : TableRow) ∈ opcodeTable ∧ (0x00200 : BitVec 18) &&& 0x3FE00 = 0x00200 := by decide
theorem witness_StepRunsDecodedInstruction :
    (ready (.plus 0xFE) []).run = true ∧ (ready (.plus 0xFE) []).fault = none ∧ 254 ≤ sv (.plus 0xFE) ∧
    sv (.plus 0xFD) ≤ 253 ∧ decode (memRead [(0xFD, .plus 0x01)] (.plus 0xFD)) (memRead [(0xFD, .plus 0x01)] (.plus 0xFE)) =
      .ok (.halt (.plus 0)) ∧ decodeOp (memRead [] (.plus 0xFD)) = none := by decide
theorem witness_FetchMovesIpByTwo :
    sv (.plus 0xFD) ≤ 253 ∧ 0 ≤ sv (.minus 0) ∧ sv (.minus 0x01) < 0 ∧ 254 ≤ sv (.plus 0xFE) := by decide
theorem witness_NoStepUnlessRunning :
    State.reset.run = false ∧ { ready (.plus 0) [] with fault := some Cause.range }.fault ≠ none := by decide
theorem witness_SzaSkipsOnZero :
    (ready (.plus 0xFD) []).z = false ∧ (flagged (.plus 0xFD)).z = true ∧ sv (flagged (.plus 0xFD)).ip + 2 ≤ 255 ∧
    sv (flagged (.plus 0xFE)).ip + 2 > 255 := by decide
theorem witness_SzxSkipsOnIndexZero :
    (ready (.plus 0xFD) []).xz = false ∧ (flagged (.plus 0xFD)).xz = true ∧ sv (flagged (.plus 0xFD)).ip + 2 ≤ 255 ∧
    sv (flagged (.plus 0xFE)).ip + 2 > 255 := by decide
theorem witness_AluNegReadings :
    0 ≤ sv (.plus 3) + sv (.minus 3) ∧ sv (.plus 3) + sv (.minus 4) = -1 ∧ sv (.minus 0xFF) + sv (.plus 0) = -255 ∧
    sv (.minus 0xFF) + sv (.minus 1) < -255 := by decide
theorem witness_AluArithmeticLaws : (sv (.plus 3) + sv (.minus 5)).natAbs = (sv (.plus 5) + sv (.minus 3)).natAbs := by
  decide
theorem witness_AddToAccumulator :
    sv { State.reset with acc := .minus 0xFF }.acc + sv (memRead [(0x11, .minus 1)] (.plus 0x11)) < -255 := by decide
theorem witness_StaStoresAccumulator : (ready (.plus 0) [(0x12, .plus 7)]).mem.wf = true := by decide
theorem witness_SubFromAccumulator :
    sv { State.reset with acc := .minus 0xFF }.acc - sv (memRead [(0x11, .plus 1)] (.plus 0x11)) < -255 := by decide
theorem witness_StxStoresIndex : (ready (.plus 0) [(0x14, .minus 0)]).mem.wf = true := by decide
theorem witness_DcxDecrementsIndex :
    sv { State.reset with x := .minus 0xFE }.x ≠ -255 ∧ sv { State.reset with x := .minus 0xFF }.x = -255 := by decide
theorem witness_AddxAddsIndexedCell :
    sv (.plus 0xF0) + sv { State.reset with x := .plus 0x0F }.x = 255 ∧
    sv (.minus 0xF0) + sv { State.reset with x := .minus 0x0F }.x = -255 ∧
    sv (.plus 0xF0) + sv { State.reset with x := .plus 0x10 }.x > 255 ∧
    sv (.minus 0xF0) + sv { State.reset with x := .minus 0x10 }.x < -255 ∧
    sv { State.reset with acc := .minus 0xFF }.acc + sv (memRead [(0xFF, .minus 1)] (.plus 0xFF)) < -255 := by decide
theorem witness_LdaxLoadsIndexedCell :
    sv (.plus 0xF0) + sv { State.reset with x := .plus 0x0F }.x ≤ 255 ∧
    sv (.plus 0xF0) + sv { State.reset with x := .plus 0x10 }.x > 255 := by decide
theorem witness_StaxStoresIndexedCell :
    sv (.minus 0xF0) + sv { State.reset with x := .minus 0x0F }.x ≥ -255 ∧
    sv (.minus 0xF0) + sv { State.reset with x := .minus 0x10 }.x < -255 := by decide
/-- JMP meets the clauses on ACC, X, XZ, RUN, flags, FAULT and memory; LDA the one on IP; a faulting DCX the others. -/
theorem witness_InstructionFrame :
    (ready (.plus 2) []).fault = none ∧
    (nextOf (exec (.jmp (.plus 9)) (ready (.plus 2) []))).map State.fault = some none ∧
    (nextOf (exec (.lda (.plus 9)) (ready (.plus 2) []))).map State.fault = some none ∧
    (nextOf (exec (.dcx (.plus 9)) { ready (.plus 2) [] with x := .minus 0xFF })).map State.fault =
      some (some .range) := by decide
theorem witness_StoreFrame :
    (ready (.plus 2) []).mem.wf = true ∧
    storeAddress (.stax (.plus 0xF0)) { ready (.plus 2) [] with x := .plus 0x0F } = some (.plus 0xFF) ∧
    storeAddress (.stax (.plus 0xF0)) { ready (.plus 2) [] with x := .plus 0x10 } = none ∧
    (nextOf (exec (.stax (.plus 0xF0)) { ready (.plus 2) [] with x := .plus 0x10 })).isSome = true := by decide
theorem witness_StepFaultsExactlyAsListed :
    (ready (.plus 0xFE) []).run = true ∧ (ready (.plus 0xFE) []).fault = none ∧
    faultOfStep (ready (.plus 0xFE) []) = some .range ∧
    faultOfStep (ready (.plus 0xFD) [(0xFD, .plus 0x01)]) = none := by decide
theorem witness_FaultingStepKeepsData :
    (ready (.plus 0x20) []).fault = none ∧
    (nextOf (step (ready (.plus 0x20) []))).map (fun t => t.fault.isSome) = some true := by decide
theorem witness_FreeValuesStayInFaultedStates :
    (nextOf (step (ready (.plus 0x20) [(0x20, .plus 0x01)]))).map State.fault = some none := by decide
/-- Each writer of the status state changes it somewhere: DCX, ADD, HALT, a fault. -/
theorem witness_StatusWriters :
    (nextOf (step { ready (.plus 0) [(0, .plus 0x29)] with x := .plus 1 })).map State.xz = some true ∧
    (nextOf (step (ready (.plus 0) [(0, .plus 0x20), (1, .plus 9)]))).map State.z = some true ∧
    (nextOf (step (ready (.plus 0) [(0, .plus 0x01)]))).map State.run = some false ∧
    (nextOf (step (ready (.plus 0) []))).map State.fault = some (some .unrecognizedOpcode) := by decide
/-- One step without a fault (SZA, Z clear) and one that takes a fault (DCX at -255), with neither SZA nor SZX at IP. -/
theorem witness_FlagReaders :
    mnemonicAtIp (ready (.plus 0) [(0, .plus 0x28)]) ≠ some .sza ∧
    mnemonicAtIp (ready (.plus 0) [(0, .plus 0x24)]) ≠ some .szx ∧
    (nextOf (step (ready (.plus 0) [(0, .plus 0x24)]))).map State.fault = some none ∧
    mnemonicAtIp { ready (.plus 0) [(0, .plus 0x29)] with x := .minus 0xFF } = some .dcx ∧
    (nextOf (step { ready (.plus 0) [(0, .plus 0x29)] with x := .minus 0xFF })).map State.fault =
      some (some .range) := by decide
/-- P5: a store into the next opcode cell, and one into the next operand cell. -/
theorem witness_StoreSeenByNextFetch :
    (ready (.plus 0x24) [(0x24, .plus 0x23)]).mem.wf = true ∧
    storeAddress (.sta (.plus 0x24)) (ready (.plus 0x24) [(0x24, .plus 0x23)]) = some (.plus 0x24) ∧
    ((nextOf (exec (.sta (.plus 0x24)) (ready (.plus 0x24) [(0x24, .plus 0x23)]))).map
      (fun t => (t.ip, (fetch t).toOption.isSome))) = some (.plus 0x24, true) ∧
    (storeAddress (.stx (.plus 0x25)) (ready (.plus 0x24) [(0x24, .plus 0x23)]) = some (.plus 0x25) ∧
    ((nextOf (exec (.stx (.plus 0x25)) (ready (.plus 0x24) [(0x24, .plus 0x23)]))).map
      (fun t => (t.ip, (fetch t).toOption.isSome, inc t.ip 1))) = some (.plus 0x24, true, .ok (.plus 0x25))) := by decide
theorem witness_HostLoadLastPairWins :
    State.reset.mem.wf = true ∧ State.reset.run = false ∧ (ready (.plus 0) []).run = true := by decide
theorem witness_HostControlOperations :
    State.reset.run = false ∧ State.reset.fault = none ∧ (ready (.plus 0) []).run = true ∧
    { State.reset with fault := some Cause.range }.fault ≠ none ∧ (nextOf (step State.reset)).isSome = true := by decide
/-- V115's state, with a cell of sign 1: the trace hides what the observations show. -/
theorem test_host_observe :
    hObserve .acc { State.reset with acc := .minus 0x05 } = .value (.minus 0x05) ∧
    hObserve (.cell 0x12) { State.reset with mem := [(0x12, .minus 0)] } = .value (.minus 0) ∧
    hObserve .fault { State.reset with fault := some .indexCarry } = .cause 2 := by decide
theorem witness_HostReadsChangeNothing :
    (Value.minus 5).m = (Value.plus 5).m ∧ (Value.minus 5).s = true ∧ (0x1F : BitVec 8) < 0x22 ∧
    (0xFF : BitVec 8) ≤ 0xFF := by decide
theorem witness_DumpText : (0x1F : BitVec 8) ≤ 0xFF ∧ (0 : BitVec 8) ≤ 0 := by decide
theorem witness_FaultedUntilReset :
    { ready (.plus 0) [] with fault := some Cause.range }.Inv ∧
    { ready (.plus 0) [] with fault := some Cause.range }.fault ≠ none ∧ HostOp.start ≠ .reset := by decide
theorem witness_StepKeepsInvariant :
    (ready (.plus 0) [(0, .plus 0x22), (1, .plus 9)]).Inv ∧
    (nextOf (step (ready (.plus 0) [(0, .plus 0x22), (1, .plus 9)]))).isSome = true := by decide
theorem witness_StepKeepsInvariantUnderEveryAluNeg :
    (subState 3).Inv ∧ (nextOf (stepWith .signedResult (subState 3))).isSome = true := by decide
theorem witness_TransactionsKeepInvariant : State.reset.Inv := by decide
theorem witness_PlacedWordRunsNext :
    State.reset.mem.wf = true ∧ decodeTableWord 24 0x04211 = some (.lda (.plus 0x11)) := by decide
/-- P8's SUB (a negative total, -2), a total at -255 and one below it, and a run of P8's SUB that `Fault` refuses beside
one of its LDA that `Fault` completes. -/
theorem witness_EveryAluNegHasItsMachine :
    aluTotal (.sub (.plus 0x11)) { ready (.plus 0x22) [(0x11, .plus 5)] with acc := .plus 3 } = some (-2) ∧
    aluTotal (.add (.plus 0x11)) { ready (.plus 0x22) [] with acc := .minus 0xFF } = some (-255) ∧
    aluTotal (.addx (.plus 0x10)) { ready (.plus 0x22) [(0x11, .minus 1)] with acc := .minus 0xFF, x := .plus 1 } =
      some (-256) ∧
    (ready (.plus 0x20) [(0x20, .plus 0x21), (0x21, .plus 0x10)]).run = true ∧
    inc (.plus 0x20) 1 = .ok (.plus 0x21) ∧ inc (.plus 0x21) 1 = .ok (.plus 0x22) ∧
    decode (.plus 0x21) (.plus 0x10) = .ok (.lda (.plus 0x10)) ∧
    (nextOf (stepWith .fault (ready (.plus 0x20) [(0x20, .plus 0x21), (0x21, .plus 0x10)]))).isSome = true := by decide
theorem witness_AssembledLineDecodes : State.reset.mem.wf = true ∧ (0xFE : BitVec 8).toNat < 255 := by decide

end Sys2Proof.Tests
end

/-! ### The Value operations: `spec/10_state.md` R21 to R26 -/

namespace Sys2Proof.Machine

/-- `mk` of a negative integer in range stores its sign and absolute value (R22). -/
theorem mkValue_of_neg {n : Int} (hl : -255 ≤ n) (hn : n < 0) : mkValue n = .ok ⟨true, BitVec.ofNat 8 n.natAbs⟩ := by
  have e : (-n).toNat = n.natAbs := by omega
  simp only [mkValue]
  rw [if_pos hn, if_neg (by omega), e]

/-- `mk` of a non-negative integer in range stores it with the sign clear (R22). -/
theorem mkValue_of_nonneg {n : Int} (hn : 0 ≤ n) (hu : n ≤ 255) :
    mkValue n = .ok ⟨false, BitVec.ofNat 8 n.natAbs⟩ := by
  have e : n.toNat = n.natAbs := by omega
  simp only [mkValue]
  rw [if_neg (by omega), if_neg (by omega), e]

/-- `mk` raises exactly on an integer out of range, and the error is `RangeError` (R22). -/
theorem mkValue_eq_error_iff {n : Int} : mkValue n = .error .range ↔ n > 255 ∨ n < -255 :=
  ⟨fun h => (mkValue_error h).2.symm, fun h => mkValue_out_of_range h.symm⟩

/-- Equality of Values is equality of both parts (R25). -/
theorem sameValue_iff (v w : Value) : sameValue v w = true ↔ v.s = w.s ∧ v.m = w.m := by
  simp only [sameValue, Bool.and_eq_true, beq_iff_eq]

/-- The zero test compares with `+0` (R25). -/
theorem isZero_iff (v : Value) : isZero v = true ↔ v.s = false ∧ v.m = 0 := sameValue_iff v (.plus 0)

/-- A sum above 255 is moved down by 256, with the carry (R26). -/
theorem vAdd_above {a b : Value} (h : sv a + sv b > 255) :
    ∃ r, vAdd a b = .ok (r, true) ∧ mkValue (sv a + sv b - 256) = .ok r := by
  have ha := sv_le a
  have hb := sv_le b
  obtain ⟨r, hr, -⟩ := mkValue_in_range (n := sv a + sv b - 256) (by omega)
  refine ⟨r, ?_, hr⟩
  simp only [vAdd]
  rw [if_pos h, hr]; rfl

/-- A sum below -255 is moved up by 256, with the carry (R26). -/
theorem vAdd_below {a b : Value} (h : sv a + sv b < -255) :
    ∃ r, vAdd a b = .ok (r, true) ∧ mkValue (sv a + sv b + 256) = .ok r := by
  have ha := le_sv a
  have hb := le_sv b
  obtain ⟨r, hr, -⟩ := mkValue_in_range (n := sv a + sv b + 256) (by omega)
  refine ⟨r, ?_, hr⟩
  simp only [vAdd]
  rw [if_neg (by omega), if_pos h, hr]; rfl

/-- A read depends on the magnitude of its address alone (D2). -/
theorem memRead_congr_magnitude (m : Memory) {a b : Value} (h : a.m = b.m) : memRead m a = memRead m b := by
  simp only [memRead, h]

/-- Settles O1: each sign has its reading, and the bounds are those of an 8-bit magnitude. -/
theorem signedIntegerOfValue : Obligations.SignedIntegerOfValue :=
  ⟨fun m => ⟨sv_plus m, sv_minus m⟩, fun v => ⟨le_sv v, sv_le v⟩, sv_plus 0, sv_minus 0⟩

/-- Settles O2: one lemma per range of the integer. -/
theorem valueFromInteger : Obligations.ValueFromInteger :=
  ⟨fun _ => mkValue_of_neg, fun _ => mkValue_of_nonneg, fun _ => mkValue_out_of_range,
    mkValue_of_nonneg (Int.le_refl 0) (by decide)⟩

/-- Settles O3: an increment is `mk` of the exact sum, so it answers and raises as `mk` does. -/
theorem incrementNeverWraps : Obligations.IncrementNeverWraps :=
  fun _ _ => ⟨rfl, mkValue_eq_error_iff, fun _ h => (mkValue_ok h).1⟩

/-- Settles O4: the zero test is equality with `+0`, and the two zeros differ in their sign. -/
theorem equalityAndZeroTest : Obligations.EqualityAndZeroTest :=
  ⟨sameValue_iff, isZero_iff, by decide, by decide⟩

/-- Settles O5: one lemma per range of the signed sum. -/
theorem valueAddWithCarry : Obligations.ValueAddWithCarry :=
  fun _ _ => ⟨vAdd_above, vAdd_below, fun hl hu => vAdd_no_carry ⟨hl, hu⟩⟩

/-- Settles O7: a read takes the magnitude of its address alone, and reset memory lists no cell. -/
theorem readUsesMagnitude : Obligations.ReadUsesMagnitude :=
  ⟨fun m _ _ => memRead_congr_magnitude m, fun _ => rfl⟩

end Sys2Proof.Machine

/-! ### Who writes the control and status state: `spec/10_state.md` section 2 -/

namespace Sys2Proof

/-- The instruction made of a mnemonic has that mnemonic. -/
@[simp] theorem mnemonic_withOperand (mn : Mnemonic) (v : Value) : (mn.withOperand v).mnemonic = mn := by
  cases mn <;> rfl

end Sys2Proof

namespace Sys2Proof.Machine

/-- The opcode cell a fetch finds is the cell at IP. -/
theorem mnemonicAtIp_of_fetch {s : State} {f : Fetched} (h : fetch s = .ok f) : mnemonicAtIp s = decodeOp f.op := by
  obtain ⟨_, -, -, hop, -⟩ := fetch_ok h
  rw [mnemonicAtIp, hop]

/-- What an executed instruction writes of XZ, Z, OVF and RUN: XZ only DCX, Z and OVF only the three that use the ALU
(or a fault), RUN only HALT. -/
theorem exec_status_writers {i : Instr} {s t : State} (h : exec i s = .next t) :
    (t.xz = s.xz ∨ i.mnemonic = .dcx) ∧
    (t.z = s.z ∧ t.ovf = s.ovf ∨ t.fault ≠ none ∨ i.mnemonic ∈ [Mnemonic.add, .sub, .addx]) ∧
    (t.run = s.run ∨ i.mnemonic = .halt ∧ t.run = false) := by
  obtain ⟨t', ht, effect⟩ := exec_effect i s
  obtain rfl : t' = t := by simpa [ht] using h
  rcases effect with ⟨c, rfl, -⟩ | ⟨v, rfl, -⟩ | ⟨rfl, -⟩ | ⟨rfl, halt⟩ | ⟨v, p, q, rfl, alu⟩ | ⟨v, rfl, -⟩ |
    ⟨v, rfl, -⟩ | ⟨v, b, rfl, dcx⟩ | ⟨ea, -, rfl, -⟩
  · exact ⟨.inl rfl, .inr (.inl (by simp)), .inl rfl⟩
  · exact ⟨.inl rfl, .inl ⟨rfl, rfl⟩, .inl rfl⟩
  · exact ⟨.inl rfl, .inl ⟨rfl, rfl⟩, .inl rfl⟩
  · exact ⟨.inl rfl, .inl ⟨rfl, rfl⟩, .inr ⟨halt, rfl⟩⟩
  · exact ⟨.inl rfl, .inr (.inr alu), .inl rfl⟩
  · exact ⟨.inl rfl, .inl ⟨rfl, rfl⟩, .inl rfl⟩
  · exact ⟨.inl rfl, .inl ⟨rfl, rfl⟩, .inl rfl⟩
  · exact ⟨.inr dcx, .inl ⟨rfl, rfl⟩, .inl rfl⟩
  · exact ⟨.inl rfl, .inl ⟨rfl, rfl⟩, .inl rfl⟩

/-- Settles O43: a step that executes no instruction writes none of XZ and RUN, and Z and OVF only by a fault; one that
executes the instruction at IP writes what that instruction writes. A step that is not idle starts with FAULT none. -/
theorem statusWriters : Obligations.StatusWriters := by
  intro s t h
  rcases step_cases s with ⟨-, e⟩ | ⟨hs, -, e⟩ | ⟨_, hs, -, -, e⟩ | ⟨f, mn, hs, hf, hd, e⟩ <;> rw [e] at h
  · obtain rfl : s = t := by simpa using h
    simp
  · obtain rfl : takeFault .range s = t := by simpa using h
    simp [((canStep_iff s).mp hs).2]
  · obtain rfl : takeFault .unrecognizedOpcode s = t := by simpa using h
    simp [((canStep_iff s).mp hs).2]
  · obtain ⟨hxz, halu, hrun⟩ := exec_status_writers h
    rw [mnemonic_withOperand] at hxz halu hrun
    rw [mnemonicAtIp_of_fetch hf, hd]
    refine ⟨fun hw => ?_, fun hw => ?_, fun hw => ?_, fun _ => ((canStep_iff s).mp hs).2⟩
    · simpa using hxz.resolve_left hw
    · simpa using halu.resolve_left fun ⟨hz, hovf⟩ => hw.elim (· hz) (· hovf)
    · simpa using hrun.resolve_left hw

end Sys2Proof.Machine

/-! ### Who reads the flags: `spec/10_state.md` section 4 -/

namespace Sys2Proof.Machine

/-- The flags XZ (R34), Z and OVF (R35). -/
inductive StatusFlag where
  | xz | z | ovf

/-- The instructions that read a flag (R34, R35). -/
def StatusFlag.readers : StatusFlag → List Mnemonic
  | .xz => [.szx]
  | .z => [.sza]
  | .ovf => []

/-- The state with one flag overwritten and everything else as it was. -/
def State.putFlag (s : State) (f : StatusFlag) (b : Bool) : State :=
  match f with
  | .xz => { s with xz := b }
  | .z => { s with z := b }
  | .ovf => { s with ovf := b }

section
variable (s : State) (f : StatusFlag) (b : Bool)
@[simp] theorem State.putFlag_acc : (s.putFlag f b).acc = s.acc := by cases f <;> rfl
@[simp] theorem State.putFlag_x : (s.putFlag f b).x = s.x := by cases f <;> rfl
@[simp] theorem State.putFlag_ip : (s.putFlag f b).ip = s.ip := by cases f <;> rfl
@[simp] theorem State.putFlag_run : (s.putFlag f b).run = s.run := by cases f <;> rfl
@[simp] theorem State.putFlag_fault : (s.putFlag f b).fault = s.fault := by cases f <;> rfl
@[simp] theorem State.putFlag_mem : (s.putFlag f b).mem = s.mem := by cases f <;> rfl
@[simp] theorem canStep_putFlag : canStep (s.putFlag f b) = canStep s := by simp [canStep]
@[simp] theorem fetch_putFlag : fetch (s.putFlag f b) = fetch s := by simp [fetch]
end

/-- SZA alone reads Z. -/
theorem putFlag_z {s : State} {f : StatusFlag} {b : Bool} (h : Mnemonic.sza ∉ f.readers) : (s.putFlag f b).z = s.z := by
  cases f <;> simp_all [StatusFlag.readers, State.putFlag]

/-- SZX alone reads XZ. -/
theorem putFlag_xz {s : State} {f : StatusFlag} {b : Bool} (h : Mnemonic.szx ∉ f.readers) :
    (s.putFlag f b).xz = s.xz := by
  cases f <;> simp_all [StatusFlag.readers, State.putFlag]

/-- Overwriting flag `f` before the operation `g` at `s` does not reach what `g` answers: `g` overwrites the flag itself,
or passes it on, and writes the rest alike. -/
def Unread (f : StatusFlag) (g : State → Out) (s : State) : Prop :=
  ∀ b, ∃ t, g s = .next t ∧ (g (s.putFlag f b) = .next t ∨ g (s.putFlag f b) = .next (t.putFlag f b))

/-- An update that overwrites the flag or passes it on does not read it. -/
theorem unread_next {f : StatusFlag} {s : State} {u : State → State}
    (h : ∀ b, u (s.putFlag f b) = u s ∨ u (s.putFlag f b) = (u s).putFlag f b) : Unread f (fun s => .next (u s)) s :=
  fun b => ⟨u s, rfl, (h b).imp (congrArg _) (congrArg _)⟩

/-- Taking a fault reads no flag. Its free values are a function of the model's counter alone, which both runs share; what
they are stays open (log entry 3). -/
theorem unread_takeFault (f : StatusFlag) (c : Cause) (s : State) : Unread f (fun s => .next (takeFault c s)) s :=
  unread_next fun b => by
    cases f with
    | xz => exact .inr rfl
    | z => exact .inl rfl
    | ovf => exact .inl rfl

/-- An attempt of a result that does not depend on the flag reads it only where its continuation does. -/
theorem unread_attempt {α : Type} {f : StatusFlag} {s : State} {r : State → Except Cause α} {k : α → State → Out}
    (hr : ∀ b, r (s.putFlag f b) = r s) (hk : ∀ v, r s = .ok v → Unread f (k v) s) :
    Unread f (fun s => attempt (r s) s (fun v => k v s)) s := by
  intro b
  simp only [hr]
  cases hv : r s with
  | ok v => exact hk v hv b
  | error c => exact unread_takeFault f c s b

/-- Moving IP reads no flag. -/
theorem unread_setIp (f : StatusFlag) (v : Value) (s : State) : Unread f (fun s => .next (s.setIp v)) s :=
  unread_next fun b => .inr (by cases f <;> rfl)

/-- The skip reads no flag. -/
theorem unread_skip (f : StatusFlag) (s : State) : Unread f skip s :=
  unread_attempt (r := fun s => inc s.ip 2) (fun b => by simp) fun v _ => unread_setIp f v s

/-- An ALU add of two operands that do not depend on the flag does not read it. -/
theorem unread_aluToAcc {f : StatusFlag} {s : State} {x y : State → Value} (hx : ∀ b, x (s.putFlag f b) = x s)
    (hy : ∀ b, y (s.putFlag f b) = y s) : Unread f (fun s => aluToAcc (aluAdd (x s) (y s)) s) s := by
  intro b
  simp only [hx, hy]
  rw [aluAdd_done]
  refine unread_next (u := fun s => (s.setAcc _).setAlu _ _) (fun b => ?_) b
  cases f with
  | xz => exact .inr rfl
  | z => exact .inl rfl
  | ovf => exact .inl rfl

/-- Every instruction reads no flag but those that `StatusFlag.readers` gives it. -/
theorem unread_exec {i : Instr} {f : StatusFlag} (s : State) (h : i.mnemonic ∉ f.readers) : Unread f (exec i) s := by
  have hindexed : ∀ a b, indexedRead (s.putFlag f b) a = indexedRead s a := fun a b => by simp [indexedRead]
  cases i with
  | jmp a => exact unread_setIp f a s
  | add a => exact unread_aluToAcc (fun b => by simp) (fun b => by simp [directRead])
  | sub a => exact unread_aluToAcc (fun b => by simp) (fun b => by simp [directRead])
  | sza o =>
    intro b
    simp only [exec, execSza, putFlag_z h]
    split
    · exact unread_skip f s b
    · exact ⟨s, rfl, .inr rfl⟩
  | szx o =>
    intro b
    simp only [exec, execSzx, putFlag_xz h]
    split
    · exact unread_skip f s b
    · exact ⟨s, rfl, .inr rfl⟩
  | dcx o =>
    refine unread_attempt (r := fun s => inc s.x (-1)) (fun b => by simp) fun v _ => unread_next fun b => ?_
    cases f with
    | xz => exact .inl rfl
    | z => exact .inr rfl
    | ovf => exact .inr rfl
  | addx a => exact unread_attempt (hindexed a) fun v _ => unread_aluToAcc (fun b => by simp) (fun _ => rfl)
  | ldax a => exact unread_attempt (hindexed a) fun v _ => unread_next fun b => .inr (by cases f <;> rfl)
  | stax a =>
    exact unread_attempt (r := fun s => indexedWrite s a s.acc) (fun b => by simp [indexedWrite])
      fun m _ => unread_next fun b => .inr (by cases f <;> rfl)
  | _ => exact unread_next fun b => .inr (by cases f <;> rfl)

/-- A dispatch reads a flag only where the instruction it selects does. -/
theorem unread_dispatch {op opd : Value} {f : StatusFlag} (s : State) (h : ∀ mn ∈ f.readers, decodeOp op ≠ some mn) :
    Unread f (dispatchBy exec op opd) s := by
  intro b
  cases hd : decodeOp op with
  | none =>
    simp only [dispatch_unrecognized _ hd]
    exact unread_takeFault f .unrecognizedOpcode s b
  | some mn =>
    simp only [dispatch_recognized _ hd]
    exact unread_exec s (fun hmem => h mn (by simpa using hmem) hd) b

/-- A step reads a flag only where the opcode cell at IP selects one of its readers. -/
theorem unread_step {s : State} {f : StatusFlag} (h : ∀ mn ∈ f.readers, mnemonicAtIp s ≠ some mn) : Unread f step s := by
  intro b
  cases hs : canStep s with
  | false =>
    rw [step_idle hs, step_idle (by simpa using hs)]
    exact ⟨s, rfl, .inr rfl⟩
  | true =>
    cases hf : fetch s with
    | error c =>
      rw [step_fetch_fault hs hf, step_fetch_fault (by simpa using hs) ((fetch_putFlag s f b).trans hf)]
      exact unread_takeFault f c s b
    | ok g =>
      rw [step_fetched hs hf, step_fetched (by simpa using hs) ((fetch_putFlag s f b).trans hf)]
      rw [mnemonicAtIp_of_fetch hf] at h
      have hcomm : (s.putFlag f b).setIp g.ip = (s.setIp g.ip).putFlag f b := by cases f <;> rfl
      rw [hcomm]
      exact unread_dispatch (s.setIp g.ip) h b

/-- `Unread` of a step, for a step whose answer is known. -/
theorem step_putFlag {s t : State} {f : StatusFlag} (b : Bool) (hr : ∀ mn ∈ f.readers, mnemonicAtIp s ≠ some mn)
    (h : step s = .next t) : ∃ u, step (s.putFlag f b) = .next u ∧ (u = t ∨ u = t.putFlag f b) := by
  obtain ⟨t', ht, hu⟩ := unread_step hr b
  obtain rfl : t' = t := by simpa [ht] using h
  exact hu.elim (fun e => ⟨t', e, .inl rfl⟩) (fun e => ⟨_, e, .inr rfl⟩)

/-- Settles O44: the other run's state is the same, or the same with the flag still overwritten. -/
theorem flagReaders : Obligations.FlagReaders := by
  intro s t b h
  refine ⟨?_, fun hz => ?_, fun hxz => ?_⟩
  · obtain ⟨u, hu, rfl | rfl⟩ := step_putFlag (f := .ovf) b (by simp [StatusFlag.readers]) h <;>
      exact ⟨_, hu, fun _ => rfl, rfl⟩
  · obtain ⟨u, hu, rfl | rfl⟩ := step_putFlag (f := .z) b (by simpa [StatusFlag.readers] using hz) h <;>
      exact ⟨_, hu, fun _ => rfl, rfl⟩
  · obtain ⟨u, hu, rfl | rfl⟩ := step_putFlag (f := .xz) b (by simpa [StatusFlag.readers] using hxz) h <;>
      exact ⟨_, hu, fun _ => rfl, rfl⟩

end Sys2Proof.Machine

/-! ### Memory and indexed addressing: `spec/20_memory.md` -/

namespace Sys2Proof.Machine

/-- A write reaches the cells of its address's magnitude bits and no other (R53). -/
theorem memRead_memWrite_eq_ite {m : Memory} (h : m.wf = true) (a v b : Value) :
    memRead (memWrite m a v) b = if b.m = a.m then v else memRead m b := by
  simp only [memRead_memWrite h, BitVec.toNat_inj]

/-- A Value written is read back at the same address (R53). -/
theorem memRead_memWrite_self {m : Memory} (h : m.wf = true) (a v : Value) : memRead (memWrite m a v) a = v := by
  simp only [memRead_memWrite_eq_ite h, if_true]

section
variable {a ea : Value} {i : Option Value} {c : Cause} (m : Memory) (v : Value)

/-- An indexed read is the plain read at the resolved address (R60). -/
theorem idxRead_of_resolve_ok (h : resolve a i = .ok ea) : idxRead m a i = .ok (memRead m ea) := by
  rw [idxRead, h]; rfl

/-- An indexed write is the plain write at the resolved address (R60). -/
theorem idxWrite_of_resolve_ok (h : resolve a i = .ok ea) : idxWrite m a i v = .ok (memWrite m ea v) := by
  rw [idxWrite, h]; rfl

/-- An indexed read raises what the resolution raises (R60). -/
theorem idxRead_of_resolve_error (h : resolve a i = .error c) : idxRead m a i = .error c := by
  rw [idxRead, h]; rfl

/-- An indexed write raises what the resolution raises and answers no memory (R60). -/
theorem idxWrite_of_resolve_error (h : resolve a i = .error c) : idxWrite m a i v = .error c := by
  rw [idxWrite, h]; rfl

end

/-- Settles O6: the cells are selected by the magnitude bits of the two addresses. -/
theorem writeStoresOneCell : Obligations.WriteStoresOneCell :=
  fun _ a v b h => memRead_memWrite_eq_ite h a v b

/-- Settles O9: the signed sum is in range, and `mk` answers it, or out of range, and the carry is raised. -/
theorem resolveFaultsOnCarry : Obligations.ResolveFaultsOnCarry := by
  refine ⟨fun _ => rfl, fun a i h => resolve_out_of_range h.symm, fun a i hl hu => ?_⟩
  obtain ⟨ea, hresolve, hmk⟩ := resolve_in_range ⟨hl, hu⟩
  rw [hresolve, hmk]

/-- Settles O10: both accesses follow the resolution, so they meet at its address; a sum in range resolves to its `mk`. -/
theorem indexedAccessAgreesWithPlain : Obligations.IndexedAccessAgreesWithPlain := by
  refine fun m a v i hwf => ⟨fun c h => ?fault, fun ea h => ?resolved, fun j hj hl hu => ?inRange⟩
  case fault => exact ⟨idxRead_of_resolve_error m h, idxWrite_of_resolve_error m v h⟩
  case resolved =>
    have hback : memRead (memWrite m ea v) ea = v := memRead_memWrite_self hwf ea v
    exact ⟨idxRead_of_resolve_ok m h, memWrite m ea v, idxWrite_of_resolve_ok m v h, rfl,
      by rw [idxRead_of_resolve_ok _ h, hback], hback⟩
  case inRange =>
    obtain ⟨ea, hresolve, hmk⟩ := resolve_in_range ⟨hl, hu⟩
    exact ⟨ea, hmk, idxRead_of_resolve_ok m (hj ▸ hresolve)⟩

end Sys2Proof.Machine

/-! ### The fetch-execute cycle: `spec/30_encoding.md` R78 -/

namespace Sys2Proof.Machine

/-- Dispatch of two cells that decode runs the decoded instruction (R78 step 3). -/
theorem dispatch_of_decode_ok {execute : Instr → State → Out} {op opd : Value} {i : Instr} (s : State)
    (h : decode op opd = .ok i) : dispatchBy execute op opd s = execute i s := by
  rw [dispatchBy, h]

/-- Settles O15: past 253 the fetch raises; below, the step is the dispatch of the two cells fetched. -/
theorem stepRunsDecodedInstruction : Obligations.StepRunsDecodedInstruction := by
  intro s hrun hfault
  have hs : canStep s = true := (canStep_iff s).mpr ⟨hrun, hfault⟩
  refine ⟨fun hip => step_fetch_fault hs (fetch_out_of_range hip), fun hip => ?_⟩
  obtain ⟨f, hf⟩ := fetch_in_range hip
  obtain ⟨ip1, hinc1, hinc2, hop, hopd, -⟩ := fetch_ok hf
  have hstep : step s = dispatchBy exec (memRead s.mem s.ip) (memRead s.mem ip1) (s.setIp f.ip) := by
    rw [step_fetched hs hf, hop, hopd]
  exact ⟨ip1, f.ip, hinc1, hinc2, fun _ hdecode => hstep.trans (dispatch_of_decode_ok _ hdecode),
    fun hnone => hstep.trans (dispatch_unrecognized _ hnone)⟩

end Sys2Proof.Machine

/-! ### The control instructions: `spec/40_control.md` -/

namespace Sys2Proof.Machine

/-- SZA skips if Z is set, else does nothing (R92). -/
theorem exec_sza (o : Value) (s : State) : exec (.sza o) s = if s.z then skip s else .next s := rfl

/-- SZX skips if XZ is set, else does nothing (R93). -/
theorem exec_szx (o : Value) (s : State) : exec (.szx o) s = if s.xz then skip s else .next s := rfl

/-- What R92 and R93 say alike: an answer that is the skip if the flag is set, and the same state if it is clear. -/
theorem conditionalSkip_answers {flag : Bool} {s : State} {answer : Out}
    (h : answer = if flag then skip s else .next s) :
    (flag = false → answer = .next s) ∧
    (flag = true → sv s.ip + 2 ≤ 255 →
      ∃ ip, inc s.ip 2 = .ok ip ∧ sv ip = sv s.ip + 2 ∧ answer = .next (s.setIp ip)) ∧
    (flag = true → sv s.ip + 2 > 255 → answer = .next (takeFault .range s)) := by
  subst h
  refine ⟨?clear, ?inRange, ?outOfRange⟩
  case clear => rintro rfl; rfl
  case inRange => rintro rfl hrange; exact skip_in_range hrange
  case outOfRange => rintro rfl hrange; exact skip_out_of_range hrange

/-- Settles O20: SZA is the conditional skip on Z. -/
theorem szaSkipsOnZero : Obligations.SzaSkipsOnZero :=
  fun o s => ⟨rfl, conditionalSkip_answers (exec_sza o s)⟩

/-- Settles O21: SZX is the conditional skip on XZ. -/
theorem szxSkipsOnIndexZero : Obligations.SzxSkipsOnIndexZero :=
  fun o s => ⟨rfl, conditionalSkip_answers (exec_szx o s)⟩

end Sys2Proof.Machine

/-! ### The accumulator instructions: `spec/41_accumulator.md` -/

namespace Sys2Proof.Machine

/-- The ALU subtract adds the negated copy, under every value of `ALU_NEG` (R102). -/
theorem aluSubWith_eq_aluAddWith_neg (mode : Config.AluNeg) (a b : Value) :
    aluSubWith mode a b = aluAddWith mode a (neg b) := rfl

/-- The ALU subtract of this hardware adds the negated copy (R102). -/
theorem aluSub_eq_aluAdd_neg (a b : Value) : aluSub a b = aluAdd a (neg b) := aluSubWith_eq_aluAddWith_neg aluNeg a b

/-- LDA writes ACC with the cell at its operand (R104). -/
theorem exec_lda (a : Value) (s : State) : exec (.lda a) s = .next (s.setAcc (memRead s.mem a)) := rfl

/-- STA writes the memory with ACC at its operand (R105). -/
theorem exec_sta (a : Value) (s : State) : exec (.sta a) s = .next (s.setMem (memWrite s.mem a s.acc)) := rfl

/-- Settles O25: the copy written out in the statement is `neg`, which the subtract adds and which negates `sv`. -/
theorem subtractIsNegateThenAdd : Obligations.SubtractIsNegateThenAdd :=
  fun a b => ⟨fun mode => aluSubWith_eq_aluAddWith_neg mode a b, aluSub_eq_aluAdd_neg a b, sv_neg b⟩

/-- Settles O28: `setAcc` is the record update of ACC alone. -/
theorem ldaLoadsAccumulator : Obligations.LdaLoadsAccumulator :=
  fun a s => ⟨rfl, exec_lda a s⟩

/-- Settles O29: `setMem` is the record update of the memory alone, and the cells follow from what a write stores. -/
theorem staStoresAccumulator : Obligations.StaStoresAccumulator :=
  fun a s => ⟨rfl, exec_sta a s, fun hwf b => memRead_memWrite_eq_ite hwf a s.acc b⟩

end Sys2Proof.Machine

/-! ### The index register instructions: `spec/42_index_register.md` -/

namespace Sys2Proof.Machine

/-- The signed integer is 0 for the two zeros and for no other Value (R21). -/
theorem sv_eq_zero_iff {v : Value} : sv v = 0 ↔ v = .plus 0 ∨ v = .minus 0 := by
  refine ⟨fun h => ?_, ?_⟩
  · have hm : v.m = 0 := BitVec.eq_of_toNat_eq (by rw [← natAbs_sv, h]; rfl)
    obtain ⟨s, m⟩ := v
    cases s with
    | false => exact .inl (congrArg (Value.mk false) hm)
    | true => exact .inr (congrArg (Value.mk true) hm)
  · rintro (rfl | rfl) <;> rfl

/-- The zero test of R25 as a decision of equality with `+0`. -/
theorem isZero_eq_decide (v : Value) : isZero v = decide (v = .plus 0) := by
  rw [Bool.eq_iff_iff, isZero_iff, decide_eq_true_iff, Value.mk.injEq]

/-- LDX writes X with the cell at its operand (R120). -/
theorem exec_ldx (a : Value) (s : State) : exec (.ldx a) s = .next (s.setX (memRead s.mem a)) := rfl

/-- STX writes the memory with X at its operand (R121). -/
theorem exec_stx (a : Value) (s : State) : exec (.stx a) s = .next (s.setMem (memWrite s.mem a s.x)) := rfl

/-- DCX attempts the decrement and writes X and XZ with its result (R122). -/
theorem exec_dcx (o : Value) (s : State) :
    exec (.dcx o) s = attempt (inc s.x (-1)) s (fun x => .next ((s.setX x).setXz (isZero x))) := rfl

/-- A decrement of a Value above -255 is exact, is never `-0`, and is `+0` only from 1 (R23, R122). -/
theorem decrement_in_range {v : Value} (h : sv v ≠ -255) :
    ∃ x, inc v (-1) = .ok x ∧ sv x = sv v - 1 ∧ x ≠ .minus 0 ∧ (x = .plus 0 ↔ sv v = 1) := by
  have hl := le_sv v
  have hu := sv_le v
  obtain ⟨x, hx, -⟩ := mkValue_in_range (n := sv v + -1) (by omega)
  obtain ⟨hsv, hnz, -⟩ := mkValue_ok hx
  refine ⟨x, hx, hsv, hnz, ?_⟩
  calc x = .plus 0
    _ ↔ sv x = 0 := by rw [sv_eq_zero_iff, or_iff_left hnz]
    _ ↔ sv v = 1 := by omega

/-- A decrement at -255 raises `RangeError` (R23, R122). -/
theorem decrement_out_of_range {v : Value} (h : sv v = -255) : inc v (-1) = .error .range :=
  mkValue_out_of_range (by omega)

/-- Settles O31: `setX` is the record update of X alone. -/
theorem ldxLoadsIndex : Obligations.LdxLoadsIndex :=
  fun a s => ⟨rfl, exec_ldx a s⟩

/-- Settles O32: `setMem` is the record update of the memory alone, and the cells follow from what a write stores. -/
theorem stxStoresIndex : Obligations.StxStoresIndex :=
  fun a s => ⟨rfl, exec_stx a s, fun hwf b => memRead_memWrite_eq_ite hwf a s.x b⟩

/-- Settles O33: DCX goes on with the decrement above -255, and takes its fault at -255. -/
theorem dcxDecrementsIndex : Obligations.DcxDecrementsIndex := by
  refine fun o s => ⟨rfl, fun hrange => ?inRange, fun hrange => ?outOfRange⟩
  case inRange =>
    obtain ⟨x, hinc, hsv, hnz, hzero⟩ := decrement_in_range hrange
    refine ⟨x, hinc, hsv, hnz, ?_, hzero⟩
    rw [exec_dcx, hinc, attempt_ok, isZero_eq_decide]; rfl
  case outOfRange =>
    rw [exec_dcx, decrement_out_of_range hrange, attempt_error]

end Sys2Proof.Machine

/-! ### The indexed instructions: `spec/43_indexed.md` -/

namespace Sys2Proof.Machine

/-- Attempting an operation whose result is mapped is attempting the operation and mapping what it goes on with. -/
theorem attempt_map {α β : Type} (r : Except Cause α) (f : α → β) (s : State) (k : β → Out) :
    attempt (r.map f) s k = attempt r s (fun v => k (f v)) := by
  cases r with
  | ok v => rfl
  | error c => rfl

/-- LDAX resolves its operand plus X and writes ACC with the cell there (R131). -/
theorem exec_ldax (a : Value) (s : State) : exec (.ldax a) s =
    attempt (resolve a (some s.x)) s (fun ea => .next (s.setAcc (memRead s.mem ea))) :=
  attempt_map _ _ s _

/-- STAX resolves its operand plus X and writes the memory with ACC there (R132). -/
theorem exec_stax (a : Value) (s : State) : exec (.stax a) s =
    attempt (resolve a (some s.x)) s (fun ea => .next (s.setMem (memWrite s.mem ea s.acc))) :=
  attempt_map _ _ s _

section
variable {a i : Value} {s : State} {k : Value → Out}

/-- A signed sum in range goes on with its `mk` as the address (R59). -/
theorem attempt_resolve_in_range (hl : -255 ≤ sv a + sv i) (hu : sv a + sv i ≤ 255) :
    ∃ ea, mkValue (sv a + sv i) = .ok ea ∧ attempt (resolve a (some i)) s k = k ea := by
  obtain ⟨ea, hresolve, hmk⟩ := resolve_in_range ⟨hl, hu⟩
  exact ⟨ea, hmk, by rw [hresolve, attempt_ok]⟩

/-- A signed sum out of range takes `IndexCarryError`, whatever was to follow (R59). -/
theorem attempt_resolve_carry (h : sv a + sv i > 255 ∨ sv a + sv i < -255) :
    attempt (resolve a (some i)) s k = .next (takeFault .indexCarry s) := by
  rw [resolve_out_of_range h.symm, attempt_error]

end

/-- Settles O35: LDAX goes on from the resolved address with a write of ACC alone, or takes the carry, which keeps
ACC. -/
theorem ldaxLoadsIndexedCell : Obligations.LdaxLoadsIndexedCell := by
  refine fun a s => ⟨rfl, fun hl hu => ?inRange, fun hcarry => ⟨?carry, takeFault_acc _ s⟩⟩
  case inRange => rw [exec_ldax]; exact attempt_resolve_in_range hl hu
  case carry => rw [exec_ldax, attempt_resolve_carry hcarry]

/-- Settles O36: STAX goes on from the resolved address with a write of the memory alone, or takes the carry, which
keeps the memory. -/
theorem staxStoresIndexedCell : Obligations.StaxStoresIndexedCell := by
  refine fun a s => ⟨rfl, fun hl hu => ?inRange, fun hcarry => ⟨?carry, takeFault_mem _ s⟩⟩
  case inRange => rw [exec_stax]; exact attempt_resolve_in_range hl hu
  case carry => rw [exec_stax, attempt_resolve_carry hcarry]

end Sys2Proof.Machine

/-! ### Decoding and encoding: `spec/30_encoding.md` sections 1 to 4 -/

namespace Sys2Proof

/-- The operand cell of the instruction made of a mnemonic and a cell is that cell (R74). -/
@[simp] theorem operand_withOperand (mn : Mnemonic) (v : Value) : (mn.withOperand v).operand = v := by
  cases mn <;> rfl

/-- An instruction is its mnemonic with its operand cell. -/
@[simp] theorem withOperand_mnemonic_operand (i : Instr) : i.mnemonic.withOperand i.operand = i := by
  cases i <;> rfl

/-- Every opcode of the map selects its mnemonic (R75). -/
@[simp] theorem decodeOp_opcode (mn : Mnemonic) : decodeOp ⟨false, mn.opcode⟩ = some mn := by
  cases mn <;> rfl

/-- An opcode cell selects a mnemonic exactly when it is that mnemonic's opcode with sign 0 (R73, R75). -/
theorem decodeOp_eq_some_iff {op : Value} {mn : Mnemonic} : decodeOp op = some mn ↔ op = ⟨false, mn.opcode⟩ := by
  refine ⟨fun h => ?_, fun h => h ▸ decodeOp_opcode mn⟩
  obtain ⟨s, m⟩ := op
  unfold decodeOp at h
  split at h
  case h_15 => simp at h
  all_goals
    rename_i hs hm
    obtain rfl := Option.some.inj h
    exact congrArg₂ Value.mk hs (BitVec.eq_of_toNat_eq hm)

/-- Two mnemonics with one opcode are the same. -/
theorem opcode_injective {mn mn' : Mnemonic} (h : mn.opcode = mn'.opcode) : mn = mn' :=
  Option.some.inj (by rw [← decodeOp_opcode mn, h, decodeOp_opcode])

/-- Two cells decode to an instruction exactly when they are its encoding. -/
theorem decode_eq_ok_iff {op opd : Value} {i : Instr} : decode op opd = .ok i ↔ encode i = (op, opd) := by
  rw [encode, Prod.mk.injEq, eq_comm (b := op), ← decodeOp_eq_some_iff]
  cases hd : decodeOp op with
  | none => simp [decode, hd]
  | some mn =>
    simp only [decode, hd, Except.ok.injEq, Option.some.injEq]
    refine ⟨?_, ?_⟩
    · rintro rfl; simp
    · rintro ⟨rfl, rfl⟩; simp

/-- Two cells are refused exactly when the opcode cell selects nothing; the operand plays no part (R76). -/
theorem decode_eq_error_iff {op opd : Value} :
    decode op opd = .error (.unrecognizedOpcode op) ↔ decodeOp op = none := by
  cases hd : decodeOp op <;> simp [decode, hd]

/-- An instruction's own cells decode to it. -/
theorem decode_encode (i : Instr) : decode (encode i).1 (encode i).2 = .ok i := decode_eq_ok_iff.mpr rfl

/-- An instruction's own packed word decodes to it. -/
theorem decodeWord_encodeWord (i : Instr) : decodeWord (encodeWord i) = .ok i := by
  rw [decodeWord, encodeWord, cellsOfWord_wordOfCells, decode_encode]

/-- A packed word that decodes is the packed word of its instruction. -/
theorem encodeWord_of_decodeWord {w : BitVec 18} {i : Instr} (h : decodeWord w = .ok i) : encodeWord i = w := by
  rw [encodeWord, decode_eq_ok_iff.mp h]
  exact wordOfCells_cellsOfWord w

/-- Settles O11: the decoder answers exactly the instruction whose encoding the cells are, and packing two cells is
inverse to unpacking a word. -/
theorem decodeEncodeAgree : Obligations.DecodeEncodeAgree :=
  ⟨fun i _ => ⟨decode_encode i, decodeWord_encodeWord i⟩, fun _ _ _ => decode_eq_ok_iff.mp,
    fun _ _ => encodeWord_of_decodeWord⟩

/-- The row a mnemonic's opcode makes: the mask of the nine opcode bits, and the opcode cell over an operand of 0. -/
def Mnemonic.tableRow (mn : Mnemonic) : TableRow := ⟨mn, 0x3FE00, wordOfCells ⟨false, mn.opcode⟩ (.plus 0)⟩

/-- Every row of the opcode table is the one its mnemonic's opcode makes. -/
theorem eq_tableRow_of_mem {r : TableRow} (h : r ∈ opcodeTable) : r = r.mnemonic.tableRow := by
  have rows : ∀ r ∈ opcodeTable, r = r.mnemonic.tableRow := by decide
  exact rows r h

/-- Every mnemonic has its row in the opcode table. -/
theorem tableRow_mem (mn : Mnemonic) : mn.tableRow ∈ opcodeTable := by
  cases mn <;> decide

/-- Packed words are equal exactly when their cells are. -/
theorem wordOfCells_inj {a b c d : Value} : wordOfCells a b = wordOfCells c d ↔ a = c ∧ b = d := by
  refine ⟨fun h => ?_, fun ⟨ha, hb⟩ => by rw [ha, hb]⟩
  have hcells := congrArg cellsOfWord h
  rwa [cellsOfWord_wordOfCells, cellsOfWord_wordOfCells, Prod.mk.injEq] at hcells

/-- The table's mask keeps the opcode cell of a packed word and clears the operand cell. -/
theorem wordOfCells_and_mask (op opd : Value) : wordOfCells op opd &&& 0x3FE00 = wordOfCells op (.plus 0) := by
  have mask : ∀ i < 18, (0x3FE00 : BitVec 18).getLsbD i = decide (9 ≤ i) := by decide
  refine BitVec.eq_of_getLsbD_eq fun i hi => ?_
  rw [BitVec.getLsbD_and, mask i hi, getLsbD_wordOfCells, getLsbD_wordOfCells]
  by_cases h : i < 9
  · rw [if_pos h, if_pos h, getLsbD_cellBits (.plus 0)]
    simp [show ¬ 9 ≤ i by omega]
  · simp [h, show 9 ≤ i by omega]

/-- A packed word fits a mnemonic's row exactly when its opcode cell is the mnemonic's opcode with sign 0. -/
theorem fits_tableRow_iff {w : BitVec 18} {mn : Mnemonic} :
    w &&& mn.tableRow.mask = mn.tableRow.pattern ↔ (cellsOfWord w).1 = ⟨false, mn.opcode⟩ := by
  rw [← wordOfCells_cellsOfWord w, Mnemonic.tableRow, wordOfCells_and_mask, wordOfCells_inj, cellsOfWord_wordOfCells]
  exact and_iff_left rfl

/-- A packed word fits a row of the table for a mnemonic exactly when its opcode cell selects the mnemonic. -/
theorem exists_row_fits_iff {w : BitVec 18} {mn : Mnemonic} :
    (∃ r ∈ opcodeTable, w &&& r.mask = r.pattern ∧ r.mnemonic = mn) ↔ (cellsOfWord w).1 = ⟨false, mn.opcode⟩ := by
  rw [← fits_tableRow_iff]
  refine ⟨?_, fun h => ⟨mn.tableRow, tableRow_mem mn, h, rfl⟩⟩
  rintro ⟨r, hr, hfits, rfl⟩
  rwa [← eq_tableRow_of_mem hr]

/-- Settles O12: the rows are those the opcodes make, so a word fits one exactly where its opcode cell is that opcode,
which the decoder asks too; and one opcode cell is the opcode of one mnemonic. -/
theorem decoderMatchesOpcodeTable : Obligations.DecoderMatchesOpcodeTable := by
  refine ⟨fun w i => ?rows, fun w r q hr hq hwr hwq => ?unique⟩
  case rows =>
    rw [exists_row_fits_iff, decodeWord, decode_eq_ok_iff, encode, Prod.mk.injEq, eq_comm (b := (cellsOfWord w).1)]
    rfl
  case unique =>
    rw [eq_tableRow_of_mem hr] at hwr ⊢
    rw [eq_tableRow_of_mem hq] at hwq ⊢
    have hop := (fits_tableRow_iff.mp hwr).symm.trans (fits_tableRow_iff.mp hwq)
    rw [opcode_injective (Value.mk.inj hop).2]

/-- Settles O13: each pair of cells is the encoding of its instruction. -/
theorem opcodeMapWords : Obligations.OpcodeMapWords :=
  ⟨decode_encode (.halt _), decode_encode (.add _), decode_encode (.lda _), decode_encode (.sta _),
    decode_encode (.jmp _), decode_encode (.sza _), decode_encode (.sub _), decode_encode (.ldx _),
    decode_encode (.stx _), decode_encode (.szx _), decode_encode (.dcx _), decode_encode (.addx _),
    decode_encode (.ldax _), decode_encode (.stax _)⟩

/-- The magnitudes of the opcode map are the opcodes of the mnemonics (R75). -/
theorem mem_opcodes_iff {n : Nat} :
    n ∈ [0x01, 0x20, 0x21, 0x22, 0x23, 0x24, 0x25, 0x26, 0x27, 0x28, 0x29, 0x40, 0x41, 0x42] ↔
      ∃ mn : Mnemonic, mn.opcode.toNat = n := by
  change n ∈ opcodeTable.map (fun r => r.mnemonic.opcode.toNat) ↔ _
  rw [List.mem_map]
  exact ⟨fun ⟨r, _, h⟩ => ⟨r.mnemonic, h⟩, fun ⟨mn, h⟩ => ⟨mn.tableRow, tableRow_mem mn, h⟩⟩

/-- An opcode cell selects something exactly when its sign is 0 and its magnitude is an opcode (R73, D4). -/
theorem decodeOp_isSome_iff (op : Value) :
    (∃ mn, decodeOp op = some mn) ↔ op.s = false ∧ ∃ mn : Mnemonic, mn.opcode.toNat = op.m.toNat := by
  obtain ⟨s, m⟩ := op
  simp only [decodeOp_eq_some_iff, Value.mk.injEq, exists_and_left, BitVec.toNat_inj, eq_comm (b := m)]

/-- Settles O14: the decoder refuses where the opcode cell selects nothing, the complement of the opcode map. -/
theorem illegalOpcodeCells : Obligations.IllegalOpcodeCells := by
  intro op opd
  rw [decode_eq_error_iff, mem_opcodes_iff, Option.eq_none_iff_forall_ne_some, ← not_exists, decodeOp_isSome_iff,
    not_and_or, Bool.not_eq_false]

end Sys2Proof

namespace Sys2Proof.Machine

/-- A line with an address and an operand assembles to its two cells at the address and behind it (R81). -/
theorem assemble_insn {p : BitVec 8} (mn : Mnemonic) (opd : Value) (hp : p.toNat < 255) :
    assemble [.insn (some p) mn (some opd)] =
      some [(.plus p, ⟨false, mn.opcode⟩), (.plus (p + 1), opd)] := by
  have hnext : BitVec.ofNat 8 (p.toNat + 1) = p + 1 := BitVec.eq_of_toNat_eq (by simp)
  have hplace : placeLine p.toNat mn opd = some [(.plus p, ⟨false, mn.opcode⟩), (.plus (p + 1), opd)] := by
    rw [placeLine, if_pos (by simp only [memSize]; omega), hnext]
    simp [encode]
  simp [assemble, assembleFrom, lineOperand, hplace]

/-- Settles O59: the line's image holds the encoding of its instruction in two different cells. -/
theorem assembledLineDecodes : Obligations.AssembledLineDecodes := by
  intro p mn opd m hwf hp
  refine ⟨_, assemble_insn mn opd hp, ?_⟩
  have hne : p ≠ p + 1 := by bv_omega
  have hload : loadPairs m [(.plus p, ⟨false, mn.opcode⟩), (.plus (p + 1), opd)] =
      memWrite (memWrite m (.plus p) ⟨false, mn.opcode⟩) (.plus (p + 1)) opd := rfl
  have hop : memRead (loadPairs m [(.plus p, ⟨false, mn.opcode⟩), (.plus (p + 1), opd)]) (.plus p) =
      ⟨false, mn.opcode⟩ := by
    rw [hload, memRead_memWrite_eq_ite (memWrite_wf _ _ hwf), if_neg hne, memRead_memWrite_self hwf]
  have hopd : memRead (loadPairs m [(.plus p, ⟨false, mn.opcode⟩), (.plus (p + 1), opd)]) (.plus (p + 1)) = opd := by
    rw [hload, memRead_memWrite_self (memWrite_wf _ _ hwf)]
  rw [hop, hopd, decode_eq_ok_iff]
  simp [encode]

end Sys2Proof.Machine

/-! ### The invariant: what every step and every host operation keeps -/

namespace Sys2Proof.Machine

/-- A canonical memory without a recorded fault meets the invariant. -/
theorem inv_of_fault_none {s : State} (hwf : s.mem.wf = true) (hfault : s.fault = none) : s.Inv :=
  ⟨hwf, by simp [hfault]⟩

/-- A fault taken with RUN = 1 meets the invariant. -/
theorem takeFault_inv {s : State} (c : Cause) (hwf : s.mem.wf = true) (hrun : s.run = true) : (takeFault c s).Inv :=
  ⟨hwf, fun _ => hrun⟩

/-- The execution of every instruction, from a state a step may execute it in, meets the invariant where it answers a
next state. -/
def ExecutionKeepsInv (execute : Instr → State → Out) : Prop :=
  ∀ (i : Instr) (s t : State), s.mem.wf = true → s.run = true → s.fault = none → execute i s = .next t → t.Inv

/-- What an executed instruction does to FAULT and the memory: it takes a fault and nothing else, or keeps FAULT, and
then writes no cell or the one it has an address for. -/
theorem exec_fault_and_mem {i : Instr} {s t : State} (h : exec i s = .next t) :
    (∃ c, t = takeFault c s) ∨ t.fault = s.fault ∧
      (t.mem = s.mem ∨ ∃ ea, storeAddress i s = some ea ∧ t.mem = memWrite s.mem ea (storedValue i s)) := by
  obtain ⟨t', ht, effect⟩ := exec_effect i s
  obtain rfl : t' = t := by simpa [ht] using h
  rcases effect with ⟨c, rfl, -⟩ | ⟨v, rfl, -⟩ | ⟨rfl, -⟩ | ⟨rfl, -⟩ | ⟨v, p, q, rfl, -⟩ | ⟨v, rfl, -⟩ |
    ⟨v, rfl, -⟩ | ⟨v, b, rfl, -⟩ | ⟨ea, hea, rfl, -⟩
  · exact .inl ⟨c, rfl⟩
  · exact .inr ⟨rfl, .inl rfl⟩
  · exact .inr ⟨rfl, .inl rfl⟩
  · exact .inr ⟨rfl, .inl rfl⟩
  · exact .inr ⟨rfl, .inl rfl⟩
  · exact .inr ⟨rfl, .inl rfl⟩
  · exact .inr ⟨rfl, .inl rfl⟩
  · exact .inr ⟨rfl, .inl rfl⟩
  · exact .inr ⟨rfl, .inr ⟨ea, hea, rfl⟩⟩

/-- This hardware's instructions keep the invariant: each takes a fault with RUN = 1, or leaves FAULT none and the
memory canonical. -/
theorem exec_keeps_inv : ExecutionKeepsInv exec := by
  intro i s t hwf hrun hfault h
  rcases exec_fault_and_mem h with ⟨c, rfl⟩ | ⟨hf, hmem | ⟨ea, -, hmem⟩⟩
  · exact takeFault_inv c hwf hrun
  · exact inv_of_fault_none (hmem ▸ hwf) (hf.trans hfault)
  · exact inv_of_fault_none (hmem ▸ memWrite_wf ea _ hwf) (hf.trans hfault)

/-- The instructions keep the invariant under every value of `ALU_NEG`. -/
theorem execWith_keeps_inv (mode : Config.AluNeg) : ExecutionKeepsInv (execWith mode) := by
  intro i s t hwf hrun hfault h
  rcases execWith_effect mode i s with e | ⟨-, ⟨v, e⟩ | e⟩ | ⟨-, e⟩ <;> rw [e] at h
  · exact exec_keeps_inv i s t hwf hrun hfault h
  · obtain rfl := Host.Outcome.next.inj h
    exact inv_of_fault_none hwf hfault
  · obtain rfl := Host.Outcome.next.inj h
    exact takeFault_inv .range hwf hrun
  · simp at h

/-- A step over instructions that keep the invariant keeps it. -/
theorem stepBy_keeps_inv {execute : Instr → State → Out} (hexec : ExecutionKeepsInv execute) {s t : State} (hs : s.Inv)
    (h : stepBy execute s = .next t) : t.Inv := by
  have hwf := hs.1
  rcases stepBy_cases s with ⟨-, e⟩ | ⟨hc, -, e⟩ | ⟨_, hc, -, -, e⟩ | ⟨f, mn, hc, -, -, e⟩ <;> rw [e] at h
  · exact Host.Outcome.next.inj h ▸ hs
  · exact Host.Outcome.next.inj h ▸ takeFault_inv _ hwf ((canStep_iff s).mp hc).1
  · exact Host.Outcome.next.inj h ▸ takeFault_inv _ hwf ((canStep_iff s).mp hc).1
  · obtain ⟨hrun, hfault⟩ := (canStep_iff s).mp hc
    exact hexec _ (s.setIp f.ip) _ hwf hrun hfault h

/-- A step of this hardware keeps the invariant. -/
theorem step_keeps_inv {s t : State} (hs : s.Inv) (h : step s = .next t) : t.Inv :=
  stepBy_keeps_inv exec_keeps_inv hs h

/-- A step under a value of `ALU_NEG` keeps the invariant. -/
theorem stepWith_keeps_inv {mode : Config.AluNeg} {s t : State} (hs : s.Inv) (h : stepWith mode s = .next t) : t.Inv :=
  stepBy_keeps_inv (execWith_keeps_inv mode) hs h

/-- The reset state meets the invariant. -/
theorem reset_inv : State.reset.Inv := inv_of_fault_none reset_mem_wf rfl

/-- Settles O54: reset memory is canonical and no fault is recorded. -/
theorem resetMeetsInvariant : Obligations.ResetMeetsInvariant := reset_inv

/-- Settles O55: an instruction executes only with RUN = 1 and FAULT none, where each keeps the invariant. -/
theorem stepKeepsInvariant : Obligations.StepKeepsInvariant :=
  fun _ _ hs => ⟨step_keeps_inv hs, fun _ => stepWith_keeps_inv hs⟩

/-! ### Sequences of host operations: `spec/00_scope.md` R9 -/

/-- H_LOAD keeps the invariant. -/
theorem hLoad_inv (pairs : List (Value × Value)) {s : State} (hs : s.Inv) : (hLoad pairs s).1.Inv := by
  unfold hLoad
  split
  · exact hs
  · exact ⟨loadPairs_wf pairs hs.1, hs.2⟩

/-- H_SET_IP keeps the invariant. -/
theorem hSetIp_inv (a : Value) {s : State} (hs : s.Inv) : (hSetIp a s).1.Inv := by
  unfold hSetIp
  split
  · exact hs
  · exact hs

/-- H_START keeps the invariant. -/
theorem hStart_inv {s : State} (hs : s.Inv) : (hStart s).1.Inv := by
  unfold hStart
  split
  · exact hs
  · exact ⟨hs.1, fun _ => rfl⟩

/-- An outcome is a next state that meets the invariant, or a refusal for one of the reasons in `stops`. -/
def EndsWithin (stops : Refusal → Prop) (o : Out) : Prop :=
  (∃ t, o = .next t ∧ t.Inv) ∨ ∃ r, o = .refused r ∧ stops r

section
variable {advance : State → Out} {stops : Refusal → Prop} (hadvance : ∀ s : State, s.Inv → EndsWithin stops (advance s))
include hadvance

/-- A transaction over a step that ends within `stops` answers a state that meets the invariant, or is refused within
`stops`: every operation but H_STEP answers a state, and H_STEP ends as the step does. -/
theorem transactBy_endsWithin (op : HostOp) {s : State} (hs : s.Inv) :
    (∃ t r, transactBy advance op s = .next (t, r) ∧ t.Inv) ∨ ∃ r, transactBy advance op s = .refused r ∧ stops r := by
  cases op with
  | step =>
    rcases hadvance s hs with ⟨t, e, ht⟩ | ⟨r, e, hr⟩
    · exact .inl ⟨t, stepReport t, by simp only [transactBy, hStepBy, e], ht⟩
    · exact .inr ⟨r, by simp only [transactBy, hStepBy, e], hr⟩
  | reset => exact .inl ⟨_, _, rfl, reset_inv⟩
  | load pairs => exact .inl ⟨_, _, rfl, hLoad_inv pairs hs⟩
  | setIp a => exact .inl ⟨_, _, rfl, hSetIp_inv a hs⟩
  | start => exact .inl ⟨_, _, rfl, hStart_inv hs⟩
  | trace => exact .inl ⟨_, _, rfl, hs⟩
  | dump first last printable => exact .inl ⟨_, _, rfl, hs⟩
  | observe e => exact .inl ⟨_, _, rfl, hs⟩

/-- A sequence of transactions over a step that ends within `stops` ends within `stops`. -/
theorem transactAllBy_endsWithin (ops : List HostOp) {s : State} (hs : s.Inv) :
    EndsWithin stops (transactAllBy advance ops s) := by
  induction ops generalizing s with
  | nil => exact .inl ⟨s, rfl, hs⟩
  | cons op rest ih =>
    rcases transactBy_endsWithin hadvance op hs with ⟨t, r, e, ht⟩ | ⟨r, e, hr⟩
    · simp only [transactAllBy, e]
      exact ih ht
    · exact .inr ⟨r, by simp only [transactAllBy, e], hr⟩

end

/-- An outcome that ends within no refusal is a next state that meets the invariant. -/
theorem endsWithin_false {o : Out} (h : EndsWithin (fun _ => False) o) : ∃ t, o = .next t ∧ t.Inv := by
  simpa [EndsWithin] using h

/-- Everything a step under a value of `ALU_NEG` can be: a next state, or, under `Fault` alone, the refusal of a
negative total. -/
theorem stepWith_answers (mode : Config.AluNeg) (s : State) :
    (∃ t, stepWith mode s = .next t) ∨ mode = .fault ∧ stepWith mode s = .refused .negativeTotal := by
  rcases stepWith_cases s with e | ⟨i, ip, e⟩
  · obtain ⟨t, ht⟩ := step_answers s
    exact .inl ⟨t, (e mode).trans ht⟩
  · rw [e mode]
    rcases execWith_effect mode i (s.setIp ip) with h | ⟨-, ⟨v, h⟩ | h⟩ | ⟨hmode, h⟩
    · obtain ⟨t, ht, -⟩ := exec_effect i (s.setIp ip)
      exact .inl ⟨t, h.trans ht⟩
    · exact .inl ⟨_, h⟩
    · exact .inl ⟨_, h⟩
    · exact .inr ⟨hmode, h⟩

/-- A step under a value of `ALU_NEG` ends within the refusal of a negative total, which `Fault` alone raises. -/
theorem stepWith_endsWithin (mode : Config.AluNeg) (s : State) (hs : s.Inv) :
    EndsWithin (fun r => mode = .fault ∧ r = .negativeTotal) (stepWith mode s) := by
  rcases stepWith_answers mode s with ⟨t, e⟩ | ⟨hmode, e⟩
  · exact .inl ⟨t, e, stepWith_keeps_inv hs e⟩
  · exact .inr ⟨.negativeTotal, e, hmode, rfl⟩

/-- Under every value of `ALU_NEG` but `Fault` a sequence of transactions is performed to its end. -/
theorem transactAllWith_inv {mode : Config.AluNeg} (hmode : mode ≠ .fault) (ops : List HostOp) {s : State}
    (hs : s.Inv) : ∃ t, transactAllWith mode ops s = .next t ∧ t.Inv := by
  have h : EndsWithin _ (transactAllWith mode ops s) := transactAllBy_endsWithin (stepWith_endsWithin mode) ops hs
  exact endsWithin_false (by simpa [hmode] using h)

/-- A sequence of transactions of this hardware is the one with its `ALU_NEG`. -/
theorem transactAllWith_absTotal (ops : List HostOp) (s : State) :
    transactAllWith .absTotal ops s = transactAll ops s := by
  rw [transactAllWith, transactAll, funext stepWith_absTotal]

/-- Settles O56: one induction over the operations for every value of `ALU_NEG`; a step ends in the refusal of a
negative total under `Fault` alone. -/
theorem transactionsKeepInvariant : Obligations.TransactionsKeepInvariant := by
  intro ops s hs
  refine ⟨?_, transactAllWith_inv (by decide) ops hs, ?_⟩
  · rw [← transactAllWith_absTotal]
    exact transactAllWith_inv (by decide) ops hs
  · refine (transactAllBy_endsWithin (stepWith_endsWithin .fault) ops hs).imp_right ?_
    rintro ⟨_, h, -, rfl⟩
    exact h

end Sys2Proof.Machine

/-! ### The run state and the ends of a run: `spec/10_state.md` R42, `spec/70_reset_and_hazards.md` R176 -/

namespace Sys2Proof.Machine

/-- RUNNING is RUN = 1 with FAULT none (R42). -/
theorem runState_eq_running_iff (s : State) : runState s = .running ↔ s.run = true ∧ s.fault = none := by
  cases hfault : s.fault <;> cases hrun : s.run <;> simp [runState, hfault, hrun]

/-- HALTED is RUN = 0 with FAULT none (R42). -/
theorem runState_eq_halted_iff (s : State) : runState s = .halted ↔ s.run = false ∧ s.fault = none := by
  cases hfault : s.fault <;> cases hrun : s.run <;> simp [runState, hfault, hrun]

/-- FAULTED is a recorded fault, whatever RUN is (R42, D9). -/
theorem runState_eq_faulted_iff (s : State) : runState s = .faulted ↔ s.fault ≠ none := by
  cases hfault : s.fault <;> cases hrun : s.run <;> simp [runState, hfault, hrun]

/-- A step runs exactly while the run state is RUNNING (R174). -/
theorem canStep_eq_false_iff (s : State) : canStep s = false ↔ s.run = false ∨ s.fault ≠ none := by
  rw [← Bool.not_eq_true, canStep_iff, not_and_or, Bool.not_eq_true]

/-- A step that is not RUNNING changes nothing (R174). -/
theorem step_eq_self {s : State} (h : s.run = false ∨ s.fault ≠ none) : step s = .next s :=
  step_idle ((canStep_eq_false_iff s).mpr h)

/-- The same by the run state. -/
theorem step_eq_self_of_not_running {s : State} (h : runState s ≠ .running) : step s = .next s := by
  rw [ne_eq, runState_eq_running_iff, ← canStep_iff, Bool.not_eq_true] at h
  exact step_idle h

/-- H_STEP answers the step's next state and reports on it (R174). -/
theorem transact_step_of_next {s t : State} (h : step s = .next t) :
    transact .step s = .next (t, .stepped (!t.run) (faultCode t.fault)) := by
  simp only [transact, transactBy, hStepBy, h, stepReport]

/-- Settles O17: the run state reads RUN and FAULT, and the gate of a step asks for both. -/
theorem noStepUnlessRunning : Obligations.NoStepUnlessRunning :=
  fun s => ⟨runState_eq_running_iff s, runState_eq_halted_iff s, runState_eq_faulted_iff s,
    fun h => ⟨step_eq_self h, transact_step_of_next (step_eq_self h)⟩⟩

/-- `j` more steps of a run. -/
theorem run_add {k : Nat} {s t : State} (h : Host.Core.run core k s = .next t) (j : Nat) :
    Host.Core.run core (k + j) s = Host.Core.run core j t := by
  induction k generalizing s with
  | zero =>
    obtain rfl : s = t := Host.Outcome.next.inj h
    rw [Nat.zero_add]
  | succ k ih =>
    obtain ⟨u, hu⟩ := step_answers s
    rw [run_succ k hu] at h
    rw [Nat.succ_add, run_succ (k + j) hu, ih h]

/-- A run from a state a step leaves as it is stays there. -/
theorem run_of_step_eq_self {s : State} (h : step s = .next s) (k : Nat) : Host.Core.run core k s = .next s := by
  induction k with
  | zero => rfl
  | succ k ih => rw [run_succ k h, ih]

/-- After any number of steps the run is in some run state. -/
theorem exists_runReaches (s : State) (k : Nat) : ∃ r, RunReaches s k r := by
  induction k generalizing s with
  | zero => exact ⟨_, s, rfl, rfl⟩
  | succ k ih =>
    obtain ⟨u, hu⟩ := step_answers s
    obtain ⟨r, t, ht, hr⟩ := ih u
    exact ⟨r, t, (run_succ k hu).trans ht, hr⟩

/-- After a number of steps the run is in one run state only. -/
theorem RunReaches.unique {s : State} {k : Nat} {r q : RunState} (hr : RunReaches s k r) (hq : RunReaches s k q) :
    r = q := by
  obtain ⟨t, ht, rfl⟩ := hr
  obtain ⟨u, hu, rfl⟩ := hq
  obtain rfl : t = u := Host.Outcome.next.inj (ht.symm.trans hu)
  rfl

/-- A run state other than RUNNING is kept by every further step (R174, D8, D9). -/
theorem RunReaches.stays {s : State} {k : Nat} {r : RunState} (h : RunReaches s k r) (hr : r ≠ .running) (j : Nat) :
    RunReaches s (k + j) r := by
  obtain ⟨t, ht, rfl⟩ := h
  exact ⟨t, (run_add ht j).trans (run_of_step_eq_self (step_eq_self_of_not_running hr) j), rfl⟩

/-- A run that reaches two run states other than RUNNING reaches the same one twice. -/
theorem RunReaches.end_unique {s : State} {k j : Nat} {r q : RunState} (hr : RunReaches s k r) (hq : RunReaches s j q)
    (hr' : r ≠ .running) (hq' : q ≠ .running) : r = q :=
  (hr.stays hr' j).unique (Nat.add_comm k j ▸ hq.stays hq' k)

/-- A run that reaches neither HALTED nor FAULTED is RUNNING after every number of steps. -/
theorem neverEnds_of_not_ends {s : State} (hh : ¬ EndsHalted s) (hf : ¬ EndsFaulted s) : NeverEnds s := by
  intro k
  obtain ⟨r, hr⟩ := exists_runReaches s k
  cases r with
  | running => exact hr
  | halted => exact absurd ⟨k, hr⟩ hh
  | faulted => exact absurd ⟨k, hr⟩ hf

/-- Settles O57: HALTED and FAULTED are kept once reached, so no run reaches both, and a run that reaches neither never
ends. -/
theorem runsEndInOneWay : Obligations.RunsEndInOneWay := by
  refine fun s => ⟨?oneOfThem, fun ⟨⟨k, hk⟩, j, hj⟩ => ?both, fun ⟨⟨k, hk⟩, hn⟩ => ?halted,
    fun ⟨⟨k, hk⟩, hn⟩ => ?faulted⟩
  case oneOfThem =>
    by_cases hh : EndsHalted s
    · exact .inl hh
    · by_cases hf : EndsFaulted s
      · exact .inr (.inl hf)
      · exact .inr (.inr (neverEnds_of_not_ends hh hf))
  case both => simpa using hk.end_unique hj (by decide) (by decide)
  case halted => simpa using hk.unique (hn k)
  case faulted => simpa using hk.unique (hn k)

/-! ### Reset, start and the gates of the host operations: `spec/70_reset_and_hazards.md` -/

/-- H_SET_IP is performed while HALTED (R172). -/
theorem hSetIp_accepted {s : State} (a : Value) (hrun : s.run = false) (hfault : s.fault = none) :
    hSetIp a s = (s.setIp a, .done) := by
  simp [hSetIp, hrun, hfault]

/-- H_SET_IP is refused while RUNNING or FAULTED (R172, D11). -/
theorem hSetIp_refused {s : State} (a : Value) (h : s.run = true ∨ s.fault ≠ none) : hSetIp a s = (s, .refused) := by
  simp only [hSetIp, Bool.or_eq_true, Option.isSome_iff_ne_none, if_pos h]

/-- H_START sets RUN where no fault is recorded (R173). -/
theorem hStart_accepted {s : State} (h : s.fault = none) : hStart s = (s.setRun true, .done) := by
  simp [hStart, h]

/-- H_START does nothing while FAULTED (R173, D19). -/
theorem hStart_faulted {s : State} (h : s.fault ≠ none) : hStart s = (s, .done) := by
  simp only [hStart, Option.isSome_iff_ne_none, if_pos h]

/-- H_LOAD is refused while RUN = 1 (R66, D11). -/
theorem hLoad_refused {s : State} (pairs : List (Value × Value)) (h : s.run = true) :
    hLoad pairs s = (s, .refused) := by
  simp [hLoad, h]

/-- H_LOAD stores its pairs while RUN = 0 (R66). -/
theorem hLoad_accepted {s : State} (pairs : List (Value × Value)) (h : s.run = false) :
    hLoad pairs s = (s.setMem (loadPairs s.mem pairs), .done) := by
  simp [hLoad, h]

/-- Settles O46: the reset values are the fields of `State.reset`. -/
theorem resetLeavesResetValues : Obligations.ResetLeavesResetValues :=
  ⟨rfl, fun _ => rfl, rfl, rfl, rfl, rfl, rfl, rfl, rfl, fun _ => rfl⟩

/-- Settles O48: one lemma per operation and gate. -/
theorem hostControlOperations : Obligations.HostControlOperations :=
  fun _ => ⟨fun a hrun hfault => congrArg _ (hSetIp_accepted a hrun hfault), fun a h => congrArg _ (hSetIp_refused a h),
    fun h => congrArg _ (hStart_accepted h), fun h => congrArg _ (hStart_faulted h), fun _ => transact_step_of_next⟩

/-- Settles O52: after H_RESET RUN is 0 and FAULT is none, so no gate refuses. -/
theorem bootSequenceReadiesProgram : Obligations.BootSequenceReadiesProgram :=
  fun _ _ _ => ⟨_, rfl, rfl, rfl, rfl, rfl, rfl, rfl, rfl, rfl, rfl⟩

/-- Settles O53: the invariant gives RUN = 1, so the gates of H_LOAD and H_SET_IP refuse, H_START and the step do
nothing, and the rest only read. -/
theorem faultedUntilReset : Obligations.FaultedUntilReset := by
  rintro s op ⟨-, hinv⟩ hfault hop
  have hrun : s.run = true := hinv (Option.isSome_iff_ne_none.mpr hfault)
  cases op with
  | reset => exact absurd rfl hop
  | load pairs => exact ⟨_, congrArg _ (hLoad_refused pairs hrun)⟩
  | setIp a => exact ⟨_, congrArg _ (hSetIp_refused a (.inl hrun))⟩
  | start => exact ⟨_, congrArg _ (hStart_faulted hfault)⟩
  | step => exact ⟨_, transact_step_of_next (step_eq_self (.inr hfault))⟩
  | trace => exact ⟨_, rfl⟩
  | dump first last printable => exact ⟨_, rfl⟩
  | observe e => exact ⟨_, rfl⟩

end Sys2Proof.Machine

/-! ### The canonical memory and H_LOAD: `spec/20_memory.md` -/

namespace Sys2Proof.Machine

/-- Everything the canonical form says of a memory that lists a cell. -/
theorem Memory.wfFrom_cons {lo a : Nat} {v : Value} {rest : Memory} :
    Memory.wfFrom lo ((a, v) :: rest) = true ↔
      lo ≤ a ∧ a < memSize ∧ v ≠ unsetCell ∧ Memory.wfFrom (a + 1) rest = true := by
  simp only [Memory.wfFrom, Bool.and_eq_true, decide_eq_true_eq, and_assoc]

/-- The first cell listed reads as it is listed. -/
@[simp] theorem Memory.read_cons_self (a : Nat) (v : Value) (rest : Memory) : Memory.read ((a, v) :: rest) a = v :=
  if_pos rfl

/-- Another cell reads as in the rest of the list. -/
theorem Memory.read_cons_of_ne {a k : Nat} (v : Value) (rest : Memory) (h : a ≠ k) :
    Memory.read ((a, v) :: rest) k = Memory.read rest k := if_neg h

/-- A canonical memory lists no cell below the cells of another that reads alike: the cell listed is not `+0`, and the
other memory reads `+0` there. -/
theorem Memory.le_of_read_eq {a b lo : Nat} {v : Value} {rest n : Memory}
    (hm : Memory.wfFrom lo ((a, v) :: rest) = true) (hn : n.wfFrom b = true)
    (h : ∀ k < memSize, Memory.read ((a, v) :: rest) k = n.read k) : b ≤ a := by
  obtain ⟨-, ha, hv, -⟩ := Memory.wfFrom_cons.mp hm
  by_contra hlt
  refine hv ?_
  calc v = Memory.read ((a, v) :: rest) a := (Memory.read_cons_self a v rest).symm
    _ = n.read a := h a ha
    _ = unsetCell := Memory.read_below hn (by omega)

/-- Two canonical memories that read alike at every cell list the same cells. -/
theorem Memory.ext_of_wfFrom {m n : Memory} {lo : Nat} (hm : m.wfFrom lo = true) (hn : n.wfFrom lo = true)
    (h : ∀ k < memSize, m.read k = n.read k) : m = n := by
  induction m generalizing lo n with
  | nil =>
    cases n with
    | nil => rfl
    | cons q n =>
      have hlow : memSize ≤ q.1 := Memory.le_of_read_eq hn (n := []) rfl fun k hk => (h k hk).symm
      have := (Memory.wfFrom_cons.mp hn).2.1
      omega
  | cons p m ih =>
    obtain ⟨a, v⟩ := p
    obtain ⟨hlo, ha, hv, hrest⟩ := Memory.wfFrom_cons.mp hm
    cases n with
    | nil =>
      have hlow : memSize ≤ a := Memory.le_of_read_eq hm (n := []) rfl h
      omega
    | cons q n =>
      obtain ⟨b, w⟩ := q
      obtain ⟨hlo', hb, hw, hrest'⟩ := Memory.wfFrom_cons.mp hn
      have hba : b ≤ a := Memory.le_of_read_eq hm (Memory.wfFrom_cons.mpr ⟨le_rfl, hb, hw, hrest'⟩) h
      have hab : a ≤ b :=
        Memory.le_of_read_eq hn (Memory.wfFrom_cons.mpr ⟨le_rfl, ha, hv, hrest⟩) fun k hk => (h k hk).symm
      obtain rfl : a = b := by omega
      have hhead : v = w := by simpa using h a ha
      have htail : m = n := by
        refine ih hrest hrest' fun k hk => ?_
        by_cases hka : k < a + 1
        · rw [Memory.read_below hrest hka, Memory.read_below hrest' hka]
        · have hne : a ≠ k := by omega
          simpa only [Memory.read_cons_of_ne _ _ hne] using h k hk
      rw [hhead, htail]

/-- Settles O8: every cell number is the magnitude of an address. -/
theorem canonicalMemoriesAreEqual : Obligations.CanonicalMemoriesAreEqual := by
  intro m n hm hn h
  refine Memory.ext_of_wfFrom hm hn fun k hk => ?_
  have hmag : (BitVec.ofNat 8 k).toNat = k := Nat.mod_eq_of_lt hk
  have hread : m.read (BitVec.ofNat 8 k).toNat = n.read (BitVec.ofNat 8 k).toNat := h (.plus (BitVec.ofNat 8 k))
  rwa [hmag] at hread

/-- After H_LOAD's writes a cell reads as the last pair to it says, or as before where there is none (R66). -/
theorem memRead_loadPairs {m : Memory} (pairs : List (Value × Value)) (hwf : m.wf = true) (a : Value) :
    memRead (loadPairs m pairs) a =
      ((pairs.reverse.find? (fun p => p.1.m == a.m)).map Prod.snd).getD (memRead m a) := by
  induction pairs generalizing m with
  | nil => rfl
  | cons p rest ih =>
    have hload : loadPairs m (p :: rest) = loadPairs (memWrite m p.1 p.2) rest := rfl
    rw [hload, ih (memWrite_wf p.1 p.2 hwf), List.reverse_cons, List.find?_append]
    cases rest.reverse.find? (fun p => p.1.m == a.m) with
    | some q => rfl
    | none =>
      rw [memRead_memWrite_eq_ite hwf]
      by_cases hp : p.1.m = a.m
      · simp [hp]
      · simp [hp, Ne.symm hp]

/-- Settles O47: the gate is on RUN alone, and the writes go from the first pair to the last. -/
theorem hostLoadLastPairWins : Obligations.HostLoadLastPairWins :=
  fun s pairs hwf => ⟨fun hrun => congrArg _ (hLoad_refused pairs hrun),
    fun hrun => ⟨loadPairs s.mem pairs, congrArg _ (hLoad_accepted pairs hrun), memRead_loadPairs pairs hwf⟩⟩

end Sys2Proof.Machine

/-! ### The fetch and the placed instruction: `spec/30_encoding.md` R78 -/

namespace Sys2Proof.Machine

/-- Two increments that answer make the fetch (R78). -/
theorem fetch_of_inc {s : State} {ip1 ip2 : Value} (h1 : inc s.ip 1 = .ok ip1) (h2 : inc ip1 1 = .ok ip2) :
    fetch s = .ok ⟨memRead s.mem s.ip, memRead s.mem ip1, ip2⟩ := by
  simp only [fetch, h1, h2]

/-- A running step whose two cells decode executes the instruction with IP incremented twice (R78). -/
theorem stepBy_of_decode {execute : Instr → State → Out} {s : State} {i : Instr} {ip1 ip2 : Value}
    (hs : canStep s = true) (h1 : inc s.ip 1 = .ok ip1) (h2 : inc ip1 1 = .ok ip2)
    (hdecode : decode (memRead s.mem s.ip) (memRead s.mem ip1) = .ok i) :
    stepBy execute s = execute i (s.setIp ip2) := by
  rw [stepBy_fetched hs (fetch_of_inc h1 h2), dispatch_of_decode_ok _ hdecode]

/-- Settles O16: each increment adds one to the signed IP, and a cell's number is its absolute value. -/
theorem fetchMovesIpByTwo : Obligations.FetchMovesIpByTwo := by
  refine fun s => ⟨fun hip => ?_, fetch_out_of_range⟩
  obtain ⟨f, hf⟩ := fetch_in_range hip
  obtain ⟨ip1, h1, -, hop, hopd, hsv⟩ := fetch_ok hf
  have hsv1 : sv ip1 = sv s.ip + 1 := (mkValue_ok h1).1
  have hcell := natAbs_sv s.ip
  have hcell1 := natAbs_sv ip1
  refine ⟨f, hf, hsv, hop, fun hnonneg => ?_, fun hneg => ?_⟩
  · have e : ip1.m.toNat = s.ip.m.toNat + 1 := by omega
    rw [hopd, memRead, e]
  · have e : ip1.m.toNat = s.ip.m.toNat - 1 := by omega
    rw [hopd, memRead, e]

/-- Settles O22: the second increment starts where the first ended, and where the first raises the sum with two is out
of range too. -/
theorem skipIsTwoIncrements : Obligations.SkipIsTwoIncrements := by
  intro v
  cases h : inc v 1 with
  | ok w =>
    have hsum : sv w + 1 = sv v + 2 := by rw [(mkValue_ok h).1, Int.add_assoc]; rfl
    exact (congrArg mkValue hsum).symm
  | error c =>
    have hl := le_sv v
    obtain ⟨rfl, hout⟩ := mkValue_error h
    exact mkValue_out_of_range (by omega)

/-- The host's placing helper fetches below 254 (log entry 11). -/
theorem sv_fetchPlace_le (ip : Value) : sv (fetchPlace ip) ≤ 253 := by
  unfold fetchPlace
  split
  · assumption
  · decide

/-- The operand place is the place after one increment, where that answers. -/
theorem operandPlace_of_inc {ip ip1 : Value} (h : inc ip 1 = .ok ip1) : operandPlace ip = ip1 := by
  simp only [operandPlace, h]

/-- One increment names another cell: the signed IP changes its parity, and so does its absolute value. -/
theorem magnitude_ne_of_inc {ip ip1 : Value} (h : inc ip 1 = .ok ip1) : ip.m ≠ ip1.m := by
  intro hm
  have hsv : sv ip1 = sv ip + 1 := (mkValue_ok h).1
  have hcell : (sv ip).natAbs = (sv ip1).natAbs := by rw [natAbs_sv, natAbs_sv, hm]
  omega

/-- The placed cells are those the next step fetches. -/
theorem placeInstruction_cells {s : State} (op opd : Value) {ip1 : Value} (hwf : s.mem.wf = true)
    (h : inc (placeInstruction s op opd).ip 1 = .ok ip1) :
    memRead (placeInstruction s op opd).mem (placeInstruction s op opd).ip = op ∧
      memRead (placeInstruction s op opd).mem ip1 = opd := by
  have hmem : (placeInstruction s op opd).mem =
      memWrite (memWrite s.mem (placeInstruction s op opd).ip op) ip1 opd :=
    congrArg (memWrite _ · opd) (operandPlace_of_inc h)
  have hwf' := memWrite_wf (placeInstruction s op opd).ip op hwf
  rw [hmem]
  refine ⟨?_, memRead_memWrite_self hwf' ip1 opd⟩
  rw [memRead_memWrite_eq_ite hwf', if_neg (magnitude_ne_of_inc h), memRead_memWrite_self hwf]

/-- The host's probe answers the instruction of the word's two cells. -/
theorem decodeTableWord_eq_some_iff {nbits w : Nat} {i : Instr} :
    decodeTableWord nbits w = some i ↔ decodeWord (BitVec.ofNat 18 w) = .ok i := by
  cases h : decodeWord (BitVec.ofNat 18 w) <;> simp [decodeTableWord, h]

/-- Settles O58: the step fetches the two cells placed, which decode to the probe's instruction. -/
theorem placedWordRunsNext : Obligations.PlacedWordRunsNext := by
  intro s nbits w i hwf hprobe
  have hdecode := decodeTableWord_eq_some_iff.mp hprobe
  obtain ⟨f, hf⟩ := fetch_in_range (s := s.withFetchWord nbits w) (sv_fetchPlace_le s.ip)
  obtain ⟨ip1, h1, h2, -, -, hsv⟩ := fetch_ok hf
  obtain ⟨hop, hopd⟩ := placeInstruction_cells _ _ hwf h1
  refine ⟨f.ip, hsv, stepBy_of_decode rfl h1 h2 ?_⟩
  rw [State.withFetchWord, hop, hopd]
  exact hdecode

end Sys2Proof.Machine

/-! ### What an instruction leaves unchanged -/

namespace Sys2Proof.Machine

/-- Settles O18: HALT is the record update of RUN alone, and the gate of a step asks for RUN. -/
theorem haltClearsRun : Obligations.HaltClearsRun :=
  fun _ _ => ⟨rfl, rfl, step_eq_self (.inl rfl)⟩

/-- Settles O19: JMP is the record update of IP alone. -/
theorem jmpSetsIp : Obligations.JmpSetsIp :=
  fun _ _ => ⟨rfl, rfl⟩

/-- A clause of the frame that excepts mnemonics says nothing of one of them where no fault is taken. -/
theorem excepted {mn : Mnemonic} {written : List Mnemonic} {fault : Option Cause} {kept : Prop} (hmn : mn ∈ written)
    (hfault : fault = none) (h : mn ∉ written ∨ fault ≠ none) : kept :=
  (h.elim (· hmn) (· hfault)).elim

/-- Settles O37: one effect of an instruction at a time; what the effect does not write is kept, and the clauses on what
it writes except its mnemonics. -/
theorem instructionFrame : Obligations.InstructionFrame := by
  intro i s t hfault h
  obtain ⟨t', ht, effect⟩ := exec_effect i s
  obtain rfl : t' = t := by simpa [ht] using h
  rcases effect with ⟨c, rfl, raises⟩ | ⟨v, rfl, jumps⟩ | ⟨rfl, -⟩ | ⟨rfl, halt⟩ | ⟨v, p, q, rfl, alu⟩ |
    ⟨v, rfl, loads⟩ | ⟨v, rfl, ldx⟩ | ⟨v, b, rfl, dcx⟩ | ⟨ea, -, rfl, stores⟩
  · simp [raises]
  · simp [jumps]
  · simp
  · simp [halt, hfault]
  · have hacc := List.mem_append_left [Mnemonic.lda, .ldax] alu
    exact ⟨excepted hacc hfault, fun _ => rfl, fun _ => rfl, fun _ => rfl, fun hi => absurd alu hi, fun _ _ => rfl,
      fun _ => rfl, fun _ _ => rfl⟩
  · have hacc := List.mem_append_right [Mnemonic.add, .sub, .addx] loads
    exact ⟨excepted hacc hfault, fun _ => rfl, fun _ => rfl, fun _ => rfl, fun _ _ => ⟨rfl, rfl⟩, fun _ _ => rfl,
      fun _ => rfl, fun _ _ => rfl⟩
  · simp [ldx, hfault]
  · simp [dcx, hfault]
  · exact ⟨fun _ => rfl, fun _ => rfl, fun _ => rfl, fun _ => rfl, fun _ _ => ⟨rfl, rfl⟩, fun _ _ => rfl, fun _ => rfl,
      excepted stores hfault⟩

/-- An instruction with an address to store to stores its Value there and does nothing else. -/
theorem exec_of_storeAddress {i : Instr} {s : State} {ea : Value} (h : storeAddress i s = some ea) :
    exec i s = .next (s.setMem (memWrite s.mem ea (storedValue i s))) := by
  cases i with
  | sta a => obtain rfl := Option.some.inj h; rfl
  | stx a => obtain rfl := Option.some.inj h; rfl
  | stax a =>
    cases hr : resolve a (some s.x) with
    | error c => simp [storeAddress, hr, Except.toOption] at h
    | ok r =>
      obtain rfl : r = ea := by simpa [storeAddress, hr, Except.toOption] using h
      rw [exec_stax, hr, attempt_ok]; rfl
  | _ => simp [storeAddress] at h

/-- An instruction without an address to store to leaves the memory as it is. -/
theorem exec_mem_of_storeAddress_none {i : Instr} {s t : State} (h : exec i s = .next t)
    (hnone : storeAddress i s = none) : t.mem = s.mem := by
  rcases exec_fault_and_mem h with ⟨c, rfl⟩ | ⟨-, hmem | ⟨ea, hea, -⟩⟩
  · rfl
  · exact hmem
  · simp [hnone] at hea

/-- After an instruction that stores, its cell reads as the Value stored and every other cell as before. -/
theorem memRead_after_store {i : Instr} {s t : State} {ea : Value} (hwf : s.mem.wf = true) (h : exec i s = .next t)
    (hea : storeAddress i s = some ea) (b : Value) :
    memRead t.mem b = if b.m = ea.m then storedValue i s else memRead s.mem b := by
  obtain rfl : s.setMem _ = t := Host.Outcome.next.inj ((exec_of_storeAddress hea).symm.trans h)
  exact memRead_memWrite_eq_ite hwf ea _ b

/-- Settles O38: a store writes one cell, and every other instruction keeps the memory. -/
theorem storeFrame : Obligations.StoreFrame := by
  refine fun i s t hwf h => ⟨fun ea hea => ⟨?_, fun b hb => ?_⟩, fun hnone b => ?_⟩
  · rw [memRead_after_store hwf h hea, if_pos rfl]
  · rw [memRead_after_store hwf h hea, if_neg hb]
  · rw [exec_mem_of_storeAddress_none h hnone]

/-- Settles O45: a fetch reads the memory the store left, at IP and at IP incremented once. -/
theorem storeSeenByNextFetch : Obligations.StoreSeenByNextFetch := by
  intro s t i ea f hwf h hea hf
  obtain ⟨ip1, h1, -, hop, hopd, -⟩ := fetch_ok hf
  refine ⟨fun hip => ?_, fun ip1' h1' hip1 => ?_⟩
  · rw [hop, memRead_after_store hwf h hea, if_pos hip]
  · obtain rfl : ip1 = ip1' := Except.ok.inj (h1.symm.trans h1')
    rw [hopd, memRead_after_store hwf h hea, if_pos hip1]

end Sys2Proof.Machine

/-! ### The faults: `spec/60_exceptions.md` -/

namespace Sys2Proof.Machine

/-- Settles O39: the fields `takeFault` writes and those it keeps, and the codes of R140. -/
theorem faultEntryState : Obligations.FaultEntryState :=
  fun c s => ⟨takeFault_fault c s, rfl, takeFault_mem c s, takeFault_acc c s, takeFault_x c s, takeFault_xz c s,
    takeFault_run c s, rfl, rfl, rfl, rfl⟩

/-- An instruction other than the six that can raise keeps FAULT. -/
theorem exec_fault_of_not_raising {i : Instr} (s : State) (hfault : s.fault = none)
    (hi : i.mnemonic ∉ [Mnemonic.sza, .szx, .dcx, .addx, .ldax, .stax]) :
    ∃ t, exec i s = .next t ∧ t.fault = none := by
  obtain ⟨t, ht, -⟩ := exec_effect i s
  obtain ⟨-, -, -, -, -, -, hkept, -⟩ := instructionFrame i s t hfault ht
  exact ⟨t, ht, (hkept hi).trans hfault⟩

/-- A conditional skip raises exactly where the flag is set and the skip passes 255 (R92, R93, R94). -/
theorem conditionalSkip_fault (flag : Bool) {s : State} (hfault : s.fault = none) :
    ∃ t, (if flag then skip s else .next s) = .next t ∧
      t.fault = if flag = true ∧ sv s.ip + 2 > 255 then some .range else none := by
  obtain ⟨hclear, hin, hout⟩ := conditionalSkip_answers (flag := flag) (s := s) rfl
  cases flag with
  | false => exact ⟨s, rfl, by simp [hfault]⟩
  | true =>
    by_cases h : sv s.ip + 2 > 255
    · exact ⟨_, hout rfl h, by simp [h]⟩
    · obtain ⟨ip, -, -, e⟩ := hin rfl (by omega)
      exact ⟨_, e, by simp [h, hfault]⟩

/-- DCX raises exactly at -255 (R122). -/
theorem exec_dcx_fault (o : Value) {s : State} (hfault : s.fault = none) :
    ∃ t, exec (.dcx o) s = .next t ∧ t.fault = if sv s.x = -255 then some .range else none := by
  rw [exec_dcx]
  by_cases h : sv s.x = -255
  · rw [decrement_out_of_range h, attempt_error]
    exact ⟨_, rfl, by simp [h]⟩
  · obtain ⟨x, hx, -⟩ := decrement_in_range h
    rw [hx, attempt_ok]
    exact ⟨_, rfl, by simp [h, hfault]⟩

/-- An access behind a resolution raises exactly on a carry, where what follows raises nothing (R59). -/
theorem attempt_resolve_fault {s : State} (a : Value) {k : Value → Out}
    (hk : ∀ ea, ∃ t, k ea = .next t ∧ t.fault = none) :
    ∃ t, attempt (resolve a (some s.x)) s k = .next t ∧
      t.fault = if indexSum s a > 255 ∨ indexSum s a < -255 then some .indexCarry else none := by
  by_cases h : indexSum s a > 255 ∨ indexSum s a < -255
  · exact ⟨_, attempt_resolve_carry h, by simp [h]⟩
  · simp only [indexSum] at h
    obtain ⟨ea, -, e⟩ := attempt_resolve_in_range (s := s) (k := k) (a := a) (i := s.x) (by omega) (by omega)
    obtain ⟨t, ht, hfault⟩ := hk ea
    exact ⟨t, e.trans ht, by simp [indexSum, h, hfault]⟩

/-- ADDX under a value of `ALU_NEG` resolves its operand plus X and adds the cell there to ACC (R130). -/
theorem execAddxWith_eq (mode : Config.AluNeg) (a : Value) (s : State) : execAddxWith mode a s =
    attempt (resolve a (some s.x)) s (fun ea => aluToAcc (aluAddWith mode s.acc (memRead s.mem ea)) s) :=
  attempt_map _ _ s _

/-- An ALU add of this hardware raises nothing (D5). -/
theorem aluToAcc_aluAdd_fault (a b : Value) (s : State) :
    ∃ t, aluToAcc (aluAdd a b) s = .next t ∧ t.fault = s.fault := by
  obtain ⟨v, p, q, -, e⟩ := aluToAcc_aluAdd a b s
  exact ⟨_, e, rfl⟩

/-- The fault of a step that fetched its two cells is that of the instruction they make, executed with IP behind it. -/
theorem exec_fault_eq_faultOfStep {s : State} {f : Fetched} {mn : Mnemonic} (hfault : s.fault = none)
    (hf : fetch s = .ok f) (hmn : decodeOp f.op = some mn) :
    ∃ t, exec (mn.withOperand f.opd) (s.setIp f.ip) = .next t ∧ t.fault = faultOfStep s := by
  obtain ⟨ip1, h1, -, -, hopd, hsv⟩ := fetch_ok hf
  have hip : ¬ sv s.ip ≥ 254 := by have := sv_le f.ip; omega
  have hoperand : operandAtIp s = f.opd := by rw [operandAtIp, operandPlace_of_inc h1, hopd]
  simp only [faultOfStep, if_neg hip, mnemonicAtIp_of_fetch hf, hmn, hoperand, ← hsv]
  cases mn with
  | sza => exact conditionalSkip_fault s.z (s := s.setIp f.ip) hfault
  | szx => exact conditionalSkip_fault s.xz (s := s.setIp f.ip) hfault
  | dcx => exact exec_dcx_fault f.opd (s := s.setIp f.ip) hfault
  | addx =>
    rw [Mnemonic.withOperand, exec, execAddx, execAddxWith_eq]
    simp only [Mnemonic.form, true_and]
    exact attempt_resolve_fault f.opd fun _ =>
      (aluToAcc_aluAdd_fault _ _ _).imp fun _ => And.imp_right (·.trans hfault)
  | ldax =>
    rw [Mnemonic.withOperand, exec_ldax]
    simp only [Mnemonic.form, true_and]
    exact attempt_resolve_fault f.opd fun _ => ⟨_, rfl, hfault⟩
  | stax =>
    rw [Mnemonic.withOperand, exec_stax]
    simp only [Mnemonic.form, true_and]
    exact attempt_resolve_fault f.opd fun _ => ⟨_, rfl, hfault⟩
  | _ => exact exec_fault_of_not_raising _ hfault (by simp [Mnemonic.withOperand, Instr.mnemonic])

/-- Settles O40: past 253 the fetch raises; an opcode cell that selects nothing is unrecognized; else the instruction
takes the fault of its row in the list. -/
theorem stepFaultsExactlyAsListed : Obligations.StepFaultsExactlyAsListed := by
  intro s hrun hfault
  have hs : canStep s = true := (canStep_iff s).mpr ⟨hrun, hfault⟩
  rcases step_cases s with ⟨hidle, -⟩ | ⟨-, hip, e⟩ | ⟨f, -, hf, hnone, e⟩ | ⟨f, mn, -, hf, hmn, e⟩
  · simp [hs] at hidle
  · exact ⟨_, e, by simp [faultOfStep, hip]⟩
  · obtain ⟨-, -, -, -, -, hsv⟩ := fetch_ok hf
    have hip : ¬ sv s.ip ≥ 254 := by have := sv_le f.ip; omega
    exact ⟨_, e, by simp [faultOfStep, hip, mnemonicAtIp_of_fetch hf, hnone]⟩
  · rw [e]
    exact exec_fault_eq_faultOfStep hfault hf hmn

/-- An instruction that takes a fault changes nothing before it (R144). -/
theorem exec_eq_takeFault {i : Instr} {s t : State} (hfault : s.fault = none) (h : exec i s = .next t)
    (ht : t.fault ≠ none) : ∃ c, t = takeFault c s :=
  (exec_fault_and_mem h).resolve_right fun ⟨hkept, _⟩ => ht (hkept.trans hfault)

/-- A step that takes a fault is a running step, and does nothing else. -/
theorem step_eq_takeFault {s t : State} (hfault : s.fault = none) (h : step s = .next t) (ht : t.fault ≠ none) :
    s.run = true ∧ ∃ c, t = takeFault c s := by
  rcases step_cases s with ⟨-, e⟩ | ⟨hs, -, e⟩ | ⟨_, hs, -, -, e⟩ | ⟨f, mn, hs, -, -, e⟩ <;> rw [e] at h
  · obtain rfl := Host.Outcome.next.inj h
    exact absurd hfault ht
  · exact ⟨((canStep_iff s).mp hs).1, _, (Host.Outcome.next.inj h).symm⟩
  · exact ⟨((canStep_iff s).mp hs).1, _, (Host.Outcome.next.inj h).symm⟩
  · obtain ⟨c, hc⟩ := exec_eq_takeFault (s := s.setIp f.ip) hfault h ht
    exact ⟨((canStep_iff s).mp hs).1, c, hc.trans (takeFault_setIp c s f.ip)⟩

/-- Settles O41: a faulting step is `takeFault` of the state before it, and no step follows it. -/
theorem faultingStepKeepsData : Obligations.FaultingStepKeepsData := by
  intro s t hfault h ht
  obtain ⟨hrun, c, rfl⟩ := step_eq_takeFault hfault h ht
  exact ⟨rfl, rfl, rfl, rfl, hrun, step_eq_self (.inr ht)⟩

/-! ### The model's counter of faults (log entry 3) -/

/-- The state with the model's counter overwritten and everything else as it was. -/
def State.putDraws (s : State) (n : Nat) : State := { s with draws := n }

/-- Two states agree but for the model's counter, and but for the values R144 leaves free where a fault is recorded. -/
def AgreesButFree (u t : State) : Prop :=
  (t.fault = none → { u with draws := t.draws } = t) ∧
    { u with draws := t.draws, ip := t.ip, z := t.z, ovf := t.ovf } = t

/-- Overwriting the counter before the operation `g` at `s` reaches the counter and the free values of a fault only. -/
def CounterUnread (g : State → Out) (s : State) : Prop :=
  ∀ n, ∃ t u, g s = .next t ∧ g (s.putDraws n) = .next u ∧ AgreesButFree u t

/-- An update that passes the counter on does not read it. -/
theorem counterUnread_next {s : State} {u : State → State} (h : ∀ n, u (s.putDraws n) = (u s).putDraws n) :
    CounterUnread (fun s => .next (u s)) s :=
  fun n => ⟨u s, (u s).putDraws n, rfl, congrArg _ (h n), fun _ => rfl, rfl⟩

/-- Taking a fault reads the counter for the free values alone. -/
theorem counterUnread_takeFault (c : Cause) (s : State) : CounterUnread (fun s => .next (takeFault c s)) s :=
  fun n => ⟨takeFault c s, takeFault c (s.putDraws n), rfl, rfl, fun h => by simp at h, rfl⟩

/-- An attempt of a result that does not depend on the counter reads it only where its continuation does. -/
theorem counterUnread_attempt {α : Type} {s : State} {r : State → Except Cause α} {k : α → State → Out}
    (hr : ∀ n, r (s.putDraws n) = r s) (hk : ∀ v, CounterUnread (k v) s) :
    CounterUnread (fun s => attempt (r s) s (fun v => k v s)) s := by
  intro n
  simp only [hr]
  cases r s with
  | ok v => exact hk v n
  | error c => exact counterUnread_takeFault c s n

/-- The skip does not read the counter. -/
theorem counterUnread_skip (s : State) : CounterUnread skip s :=
  counterUnread_attempt (r := fun s => inc s.ip 2) (fun _ => rfl) fun _ => counterUnread_next fun _ => rfl

/-- A conditional skip on a flag other than the counter does not read the counter. -/
theorem counterUnread_conditionalSkip (s : State) (flag : State → Bool) (hflag : ∀ n, flag (s.putDraws n) = flag s) :
    CounterUnread (fun s => if flag s then skip s else .next s) s := by
  intro n
  simp only [hflag]
  cases flag s with
  | true => exact counterUnread_skip s n
  | false => exact counterUnread_next (u := id) (fun _ => rfl) n

/-- An ALU add to ACC does not read the counter. -/
theorem counterUnread_aluToAcc (s : State) (x y : State → Value) (hx : ∀ n, x (s.putDraws n) = x s)
    (hy : ∀ n, y (s.putDraws n) = y s) : CounterUnread (fun s => aluToAcc (aluAdd (x s) (y s)) s) s := by
  intro n
  simp only [hx, hy]
  rw [aluAdd_done]
  exact counterUnread_next (u := fun s => (s.setAcc _).setAlu _ _) (fun _ => rfl) n

/-- No instruction reads the counter but for the free values of its fault. -/
theorem counterUnread_exec (i : Instr) (s : State) : CounterUnread (exec i) s := by
  cases i with
  | add a => exact counterUnread_aluToAcc s State.acc (directRead · a) (fun _ => rfl) fun _ => rfl
  | sub a => exact counterUnread_aluToAcc s State.acc (fun s => neg (directRead s a)) (fun _ => rfl) fun _ => rfl
  | sza o => exact counterUnread_conditionalSkip s State.z fun _ => rfl
  | szx o => exact counterUnread_conditionalSkip s State.xz fun _ => rfl
  | dcx o =>
    exact counterUnread_attempt (r := fun s => inc s.x (-1)) (fun _ => rfl) fun _ => counterUnread_next fun _ => rfl
  | addx a =>
    exact counterUnread_attempt (r := (indexedRead · a)) (fun _ => rfl) fun v =>
      counterUnread_aluToAcc s State.acc (fun _ => v) (fun _ => rfl) fun _ => rfl
  | ldax a =>
    exact counterUnread_attempt (r := (indexedRead · a)) (fun _ => rfl) fun _ => counterUnread_next fun _ => rfl
  | stax a =>
    exact counterUnread_attempt (r := fun s => indexedWrite s a s.acc) (fun _ => rfl) fun _ =>
      counterUnread_next fun _ => rfl
  | _ => exact counterUnread_next fun _ => rfl

/-- No dispatch reads the counter but for the free values of its fault. -/
theorem counterUnread_dispatch (op opd : Value) (s : State) : CounterUnread (dispatchBy exec op opd) s := by
  intro n
  cases hd : decodeOp op with
  | none =>
    simp only [dispatch_unrecognized _ hd]
    exact counterUnread_takeFault .unrecognizedOpcode s n
  | some mn =>
    simp only [dispatch_recognized _ hd]
    exact counterUnread_exec (mn.withOperand opd) s n

/-- No step reads the counter but for the free values of its fault. -/
theorem counterUnread_step (s : State) : CounterUnread step s := by
  intro n
  cases hs : canStep s with
  | false =>
    rw [step_idle hs, step_idle (s := s.putDraws n) hs]
    exact counterUnread_next (u := id) (fun _ => rfl) n
  | true =>
    cases hf : fetch s with
    | error c =>
      rw [step_fetch_fault hs hf, step_fetch_fault (s := s.putDraws n) hs hf]
      exact counterUnread_takeFault c s n
    | ok f =>
      rw [step_fetched hs hf, step_fetched (s := s.putDraws n) hs hf]
      exact counterUnread_dispatch f.op f.opd (s.setIp f.ip) n

/-- Settles O42: the other run's step is the one from the counter overwritten. -/
theorem freeValuesStayInFaultedStates : Obligations.FreeValuesStayInFaultedStates := by
  intro s t n h
  obtain ⟨t', u, ht, hu, hagree⟩ := counterUnread_step s n
  obtain rfl : t' = t := Host.Outcome.next.inj (ht.symm.trans h)
  exact ⟨u, hu, hagree⟩

end Sys2Proof.Machine

/-! ### The ALU on this hardware: `spec/41_accumulator.md` sections 1 and 3 -/

namespace Sys2Proof.Machine

/-- A total the ALU can meet has at most 510 in absolute value. -/
theorem natAbs_sum_le (a b : Value) : (sv a + sv b).natAbs ≤ 510 := by
  have ha := sv_le a; have hb := sv_le b; have ha' := le_sv a; have hb' := le_sv b
  omega

/-- The result magnitude of a total up to 510 is the total modulo 256 (R100). -/
theorem aluMagnitude_eq_mod {u : Nat} (h : u ≤ 510) : aluMagnitude u = u % 256 := by
  unfold aluMagnitude
  split <;> omega

/-- The ALU add of this hardware in closed form (R107, D5). -/
theorem aluAdd_closed (a b : Value) : aluAdd a b =
    .done ⟨false, BitVec.ofNat 8 ((sv a + sv b).natAbs % 256)⟩ (decide ((sv a + sv b).natAbs % 256 = 0))
      (decide ((sv a + sv b).natAbs > 255)) := by
  rw [aluAdd_done, aluUnsigned, aluMagnitude_eq_mod (natAbs_sum_le a b)]
  rfl

/-- Settles O23: the result magnitude is the total's absolute value modulo 256. -/
theorem aluAddClosedForm : Obligations.AluAddClosedForm := aluAdd_closed

/-- The ALU add of this hardware depends on the absolute value of the total alone (D5). -/
theorem aluAdd_congr {a b c d : Value} (h : (sv a + sv b).natAbs = (sv c + sv d).natAbs) : aluAdd a b = aluAdd c d := by
  rw [aluAdd_done, aluAdd_done, h]

/-- The ALU add of this hardware is commutative. -/
theorem aluAdd_comm (a b : Value) : aluAdd a b = aluAdd b a := aluAdd_congr (by rw [Int.add_comm])

/-- On operands of sign 0 the ALU add is the 8-bit unsigned add with its carry. -/
theorem aluAdd_plus (m n : BitVec 8) : aluAdd (.plus m) (.plus n) =
    .done (.plus (m + n)) (decide (m + n = 0)) (BitVec.carry 8 m n false) := by
  have htotal : (sv (.plus m) + sv (.plus n)).natAbs = m.toNat + n.toNat := by
    rw [sv_plus, sv_plus]; omega
  have hsum : (m + n).toNat = (m.toNat + n.toNat) % 256 := BitVec.toNat_add m n
  have hresult : BitVec.ofNat 8 ((m.toNat + n.toNat) % 256) = m + n := by
    rw [← hsum, BitVec.ofNat_toNat, BitVec.setWidth_eq]
  have hzero : (m.toNat + n.toNat) % 256 = 0 ↔ m + n = 0 := by rw [← hsum, ← BitVec.toNat_inj]; rfl
  have hcarry : decide (m.toNat + n.toNat > 255) = BitVec.carry 8 m n false := by
    have hm := m.isLt; have hn := n.isLt
    rw [BitVec.carry, decide_eq_decide, Bool.toNat_false]; omega
  rw [aluAdd_closed, htotal, hresult, decide_eq_decide.mpr hzero, hcarry]

/-- On operands of sign 0 the ALU subtract is the absolute difference, without overflow. -/
theorem aluSub_plus (m n : BitVec 8) : aluSub (.plus m) (.plus n) =
    .done (.plus (if m < n then n - m else m - n)) (decide (m = n)) false := by
  have hm := m.isLt; have hn := n.isLt
  have htotal : sv (.plus m) + sv (neg (.plus n)) = m.toNat - n.toNat := by
    rw [sv_neg, sv_plus, sv_plus, Int.sub_eq_add_neg]
  have hmod : (sv (.plus m) + sv (neg (.plus n))).natAbs % 256 = (if m < n then n - m else m - n).toNat := by
    rw [htotal]; split <;> bv_omega
  have hzero : (if m < n then n - m else m - n).toNat = 0 ↔ m = n := by
    rw [← hmod, htotal, ← BitVec.toNat_inj]; omega
  have hoverflow : ¬ (sv (.plus m) + sv (neg (.plus n))).natAbs > 255 := by omega
  rw [aluSub_eq_aluAdd_neg, aluAdd_closed, hmod, BitVec.ofNat_toNat, BitVec.setWidth_eq, decide_eq_decide.mpr hzero,
    decide_eq_false hoverflow]

/-- Both ALU flags are set only at a total of magnitude 256, whose result is `+0`. -/
theorem aluAdd_both_flags_iff {a b r : Value} :
    aluAdd a b = .done r true true ↔ (sv a + sv b).natAbs = 256 ∧ r = .plus 0 := by
  have hle := natAbs_sum_le a b
  rw [aluAdd_closed, AluOut.done.injEq, decide_eq_true_iff, decide_eq_true_iff]
  refine ⟨fun ⟨hr, hzero, hoverflow⟩ => ⟨by omega, ?_⟩, fun ⟨htotal, hr⟩ => ?_⟩
  · rw [← hr, hzero]; rfl
  · rw [htotal, hr]; decide

/-- Settles O26: each law reads the closed form on its operands. -/
theorem aluArithmeticLaws : Obligations.AluArithmeticLaws :=
  ⟨aluAdd_comm, fun _ _ _ _ => aluAdd_congr, aluAdd_plus, aluSub_plus, fun _ _ _ => aluAdd_both_flags_iff⟩

/-- A negative total in range under `SignedResult` is its `mk`, with both flags 0 (R101). -/
theorem aluAddWith_signed_in_range {a b : Value} (hneg : sv a + sv b < 0) (hl : -255 ≤ sv a + sv b) :
    ∃ r, mkValue (sv a + sv b) = .ok r ∧ aluAddWith .signedResult a b = .done r false false := by
  obtain ⟨r, hr, -⟩ := mkValue_in_range (n := sv a + sv b) (by omega)
  exact ⟨r, hr, by rw [aluAddWith_signed hneg, aluSigned, hr]⟩

/-- A total below -255 under `SignedResult` is `RangeError` (R101). -/
theorem aluAddWith_signed_below {a b : Value} (h : sv a + sv b < -255) :
    aluAddWith .signedResult a b = .raised .range := by
  rw [aluAddWith_signed (by omega), aluSigned, mkValue_out_of_range (.inl h)]

/-- Settles O24: a total of 0 or more is read as on this hardware, and a negative one by the value's own lemma. -/
theorem aluNegReadings : Obligations.AluNegReadings := by
  refine fun a b => ⟨fun mode h => ?_, aluAddWith_signed_in_range, aluAddWith_signed_below, aluAddWith_fault⟩
  have hzero : (sv a + sv b).natAbs % 256 = 0 ↔ (sv a + sv b) % 256 = 0 := by omega
  have hoverflow : (sv a + sv b).natAbs > 255 ↔ sv a + sv b > 255 := by omega
  rw [aluAddWith_nonneg mode h, aluAdd_closed, decide_eq_decide.mpr hzero, decide_eq_decide.mpr hoverflow]

/-! ### ADD, SUB and ADDX: `spec/41_accumulator.md` section 2, `spec/43_indexed.md` -/

/-- ADD hands the ALU ACC and the cell (R103). -/
theorem execAddWith_eq (mode : Config.AluNeg) (a : Value) (s : State) :
    execAddWith mode a s = aluToAcc (aluAddWith mode s.acc (memRead s.mem a)) s := rfl

/-- SUB hands the ALU ACC and the negated copy of the cell (R106). -/
theorem execSubWith_eq (mode : Config.AluNeg) (a : Value) (s : State) :
    execSubWith mode a s = aluToAcc (aluAddWith mode s.acc (neg (memRead s.mem a))) s := rfl

/-- An ALU total below -255 under `SignedResult` takes `RangeError` (R101). -/
theorem aluToAcc_signed_below {b : Value} {s : State} (h : sv s.acc + sv b < -255) :
    aluToAcc (aluAddWith .signedResult s.acc b) s = .next (takeFault .range s) := by
  rw [aluAddWith_signed_below h]; rfl

/-- Settles O27: the ALU of this hardware always answers, and its answer goes to ACC, Z and OVF. -/
theorem addToAccumulator : Obligations.AddToAccumulator := by
  intro a s
  obtain ⟨r, z, ovf, hadd, e⟩ := aluToAcc_aluAdd s.acc (memRead s.mem a) s
  refine ⟨rfl, ⟨r, z, ovf, hadd, e⟩, fun h => ⟨?_, takeFault_acc _ s⟩⟩
  rw [execAddWith_eq, aluToAcc_signed_below h]

/-- Settles O30: SUB is the ALU add of the negated copy. -/
theorem subFromAccumulator : Obligations.SubFromAccumulator := by
  intro a s
  obtain ⟨r, z, ovf, hadd, e⟩ := aluToAcc_aluAdd s.acc (neg (memRead s.mem a)) s
  refine ⟨rfl, ⟨r, z, ovf, hadd, e⟩, fun h => ?_⟩
  rw [execSubWith_eq, aluToAcc_signed_below (by rw [sv_neg]; omega)]

/-- Settles O34: in range ADDX is the ALU add of the cell at the resolved address; else the resolution raises first. -/
theorem addxAddsIndexedCell : Obligations.AddxAddsIndexedCell := by
  refine fun a s => ⟨rfl, fun hl hu => ?inRange, fun hcarry => ?carry⟩
  case inRange =>
    obtain ⟨ea, hresolve, hmk⟩ := resolve_in_range ⟨hl, hu⟩
    obtain ⟨r, z, ovf, hadd, e⟩ := aluToAcc_aluAdd s.acc (memRead s.mem ea) s
    refine ⟨ea, r, z, ovf, hmk, hadd, ?_, fun h => ?_⟩
    · rw [exec, execAddx, execAddxWith_eq, hresolve, attempt_ok]
      exact e
    · rw [execAddxWith_eq, hresolve, attempt_ok, aluToAcc_signed_below h]
  case carry => rw [exec, execAddx, execAddxWith_eq, attempt_resolve_carry hcarry]

/-! ### The machine under every `ALU_NEG`: `spec/00_scope.md` R6, R101 -/

/-- With this hardware's `ALU_NEG` a transaction is this hardware's. -/
theorem transactWith_absTotal (op : HostOp) (s : State) : transactWith .absTotal op s = transact op s := by
  rw [transactWith, transact, funext stepWith_absTotal]

/-- An instruction that hands the ALU no negative total acts as on this hardware under every value. -/
theorem execWith_of_nonneg (mode : Config.AluNeg) {i : Instr} {s : State} (h : ∀ n, aluTotal i s = some n → 0 ≤ n) :
    execWith mode i s = exec i s := by
  rcases execWith_cases i s with ⟨-, e⟩ | ⟨b, htotal, e⟩
  · exact e mode
  · rw [← execWith_absTotal, e mode, e .absTotal, aluAddWith_nonneg mode (h _ htotal),
      aluAddWith_nonneg .absTotal (h _ htotal)]

/-- An instruction that hands the ALU a total hands it ACC and a Value with that sum. -/
theorem execWith_of_aluTotal {i : Instr} {s : State} {n : Int} (h : aluTotal i s = some n) :
    ∃ b, n = sv s.acc + sv b ∧ ∀ mode, execWith mode i s = aluToAcc (aluAddWith mode s.acc b) s := by
  rcases execWith_cases i s with ⟨hnone, -⟩ | ⟨b, htotal, e⟩
  · simp [hnone] at h
  · exact ⟨b, Option.some.inj (h.symm.trans htotal), e⟩

/-- An instruction that hands the ALU a negative total has no meaning under `Fault` (R101). -/
theorem execWith_fault_of_neg {i : Instr} {s : State} {n : Int} (h : aluTotal i s = some n) (hn : n < 0) :
    execWith .fault i s = .refused .negativeTotal := by
  obtain ⟨b, rfl, e⟩ := execWith_of_aluTotal h
  rw [e, aluAddWith_fault hn]; rfl

/-- An instruction that hands the ALU a negative total under `SignedResult`: ACC is `mk` of the total with both flags 0,
or `RangeError` is taken (R101). -/
theorem execWith_signed_of_neg {i : Instr} {s : State} {n : Int} (h : aluTotal i s = some n) (hn : n < 0) :
    (-255 ≤ n → ∃ r, mkValue n = .ok r ∧
      execWith .signedResult i s = .next ((s.setAcc r).setAlu false false)) ∧
    (n < -255 → execWith .signedResult i s = .next (takeFault .range s)) := by
  obtain ⟨b, rfl, e⟩ := execWith_of_aluTotal h
  refine ⟨fun hl => ?_, fun hbelow => (e _).trans (aluToAcc_signed_below hbelow)⟩
  obtain ⟨r, hr, halu⟩ := aluAddWith_signed_in_range hn hl
  exact ⟨r, hr, by rw [e, halu]; rfl⟩

/-- A step that the machine with `Fault` completes is the step of every value. -/
theorem stepWith_of_fault {s t : State} (h : stepWith .fault s = .next t) (mode : Config.AluNeg) :
    stepWith mode s = .next t := by
  rcases stepWith_cases s with e | ⟨i, ip, e⟩
  · rw [e mode, ← e .fault, h]
  · have hnonneg : ∀ n, aluTotal i (s.setIp ip) = some n → 0 ≤ n := by
      intro n hn
      by_contra hneg
      simp [e .fault, execWith_fault_of_neg hn (by omega)] at h
    rw [e mode, execWith_of_nonneg mode hnonneg, ← execWith_of_nonneg .fault hnonneg, ← e .fault, h]

/-- One more step of a run under a value of `ALU_NEG` is its first step, then the rest. -/
theorem run_coreWith_succ {mode : Config.AluNeg} {s u : State} (k : Nat) (h : stepWith mode s = .next u) :
    Host.Core.run (coreWith mode) (k + 1) s = Host.Core.run (coreWith mode) k u := by
  have e := Host.Core.run.eq_2 (coreWith mode) s k
  rw [show (coreWith mode).step s = .next u from h] at e
  exact e

/-- A run under a value of `ALU_NEG` that is completed completes its first step. -/
theorem stepWith_of_run_succ {mode : Config.AluNeg} {k : Nat} {s t : State}
    (h : Host.Core.run (coreWith mode) (k + 1) s = .next t) : ∃ u, stepWith mode s = .next u := by
  rcases stepWith_answers mode s with hnext | ⟨-, hrefused⟩
  · exact hnext
  · have e := Host.Core.run.eq_2 (coreWith mode) s k
    rw [show (coreWith mode).step s = .refused .negativeTotal from hrefused] at e
    cases h.symm.trans e

/-- A run that the machine with `Fault` completes is the run of this hardware and of every value. -/
theorem run_of_run_fault {k : Nat} {s t : State} (h : Host.Core.run (coreWith .fault) k s = .next t) :
    Host.Core.run core k s = .next t ∧ ∀ mode, Host.Core.run (coreWith mode) k s = .next t := by
  induction k generalizing s with
  | zero => exact ⟨h, fun _ => h⟩
  | succ k ih =>
    obtain ⟨u, hu⟩ := stepWith_of_run_succ h
    obtain ⟨hcore, hall⟩ := ih ((run_coreWith_succ k hu).symm.trans h)
    have hstep : step s = .next u := (stepWith_absTotal s).symm.trans (stepWith_of_fault hu .absTotal)
    exact ⟨(run_succ k hstep).trans hcore,
      fun mode => (run_coreWith_succ k (stepWith_of_fault hu mode)).trans (hall mode)⟩

/-- Settles O60: the values part only where a negative total reaches the ALU, and there `Fault` ends the run. -/
theorem everyAluNegHasItsMachine : Obligations.EveryAluNegHasItsMachine := by
  refine ⟨fun s => ⟨stepWith_absTotal s, stepWith_absTotal s, fun op => transactWith_absTotal op s⟩,
    fun mode s i ip1 ip2 hrun hfault h1 h2 hdecode => ?_, fun mode _ _ => execWith_of_nonneg mode,
    fun i s n htotal hn => ?_, fun _ _ _ => run_of_run_fault⟩
  · exact stepBy_of_decode ((canStep_iff s).mpr ⟨hrun, hfault⟩) h1 h2 hdecode
  · obtain ⟨hin, hbelow⟩ := execWith_signed_of_neg htotal hn
    exact ⟨hin, hbelow, execWith_fault_of_neg htotal hn⟩

end Sys2Proof.Machine

/-! ### What the host reads: `spec/10_state.md` R28, `spec/60_exceptions.md` section 4 -/

namespace Sys2Proof.Machine

/-- The lower-case hex digits. -/
def hexDigits : List Char := ['0', '1', '2', '3', '4', '5', '6', '7', '8', '9', 'a', 'b', 'c', 'd', 'e', 'f']

/-- `hexDigit` is the digit of its place. -/
theorem getElem?_hexDigits {n : Nat} (h : n < 16) : hexDigits[n]? = some (hexDigit n) := by
  have digits : ∀ n < 16, hexDigits[n]? = some (hexDigit n) := by decide
  exact digits n h

/-- The printable range (R28). -/
theorem isPrintable_iff (v : Value) : isPrintable v = true ↔ 0x20 ≤ v.m.toNat ∧ v.m.toNat ≤ 0x7e := by
  simp only [isPrintable, Bool.and_eq_true, decide_eq_true_eq]

/-- Settles O50: the two halves of an 8-bit magnitude are below 16. -/
theorem hexShowsMagnitude : Obligations.HexShowsMagnitude := by
  intro v
  have hm := v.m.isLt
  exact ⟨⟨_, _, getElem?_hexDigits (by omega), getElem?_hexDigits (by omega), rfl⟩, isPrintable_iff v⟩

/-- A dump's bounds are accepted where both signs are 0 and they are not crossed (D14). -/
theorem dumpAccepted_iff (first last : Value) :
    dumpAccepted first last = true ↔ first.s = false ∧ last.s = false ∧ first.m ≤ last.m := by
  simp only [dumpAccepted, Bool.and_eq_true, Bool.not_eq_true', decide_eq_true_eq, BitVec.le_def, and_assoc]

/-- An accepted dump answers its lines, joined by newlines (R154). -/
theorem hDump_accepted {first last : Value} (printable : Bool) (s : State)
    (h : first.s = false ∧ last.s = false ∧ first.m ≤ last.m) : hDump first last printable s =
      .text (List.intercalate ['\n'] ((dumpAddresses first last).map (dumpLine s.mem printable))) := by
  rw [hDump, if_pos ((dumpAccepted_iff first last).mpr h)]

/-- A dump with a negative bound or crossed bounds is refused (D14). -/
theorem hDump_refused {first last : Value} (printable : Bool) (s : State)
    (h : first.s = true ∨ last.s = true ∨ last.m < first.m) : hDump first last printable s = .refused := by
  have hnot : ¬ dumpAccepted first last = true := by
    rw [dumpAccepted_iff]
    rintro ⟨hf, hl, hle⟩
    simp [hf, hl, BitVec.not_lt.mpr hle] at h
  rw [hDump, if_neg hnot]

/-- A dump over an empty range has no addresses (R154). -/
theorem dumpAddresses_self (a : Value) : dumpAddresses a a = [] := by
  rw [dumpAddresses, Nat.sub_self]; rfl

/-- Settles O49: H_TRACE and H_OBSERVE by their definitions, H_DUMP by its gate. -/
theorem hostReadsChangeNothing : Obligations.HostReadsChangeNothing := by
  refine fun s => ⟨rfl, fun _ => rfl, rfl, rfl, rfl, rfl, rfl, rfl, rfl, rfl, fun _ => rfl, ?refused, ?accepted, ?empty⟩
  case refused =>
    intro first last p h
    rw [transact, transactBy, hDump_refused p s h]
  case accepted =>
    intro first last p hf hl hle
    exact ⟨_, by rw [transact, transactBy, hDump_accepted p s ⟨hf, hl, hle⟩]⟩
  case empty =>
    intro a p
    rw [transact, transactBy, hDump_accepted p s ⟨rfl, rfl, BitVec.le_refl a⟩, dumpAddresses_self]; rfl

/-- The numbers below `b` are those below `a`, then those from `a`. -/
theorem range'_append_of_le {a b : Nat} (h : a ≤ b) :
    List.range' 0 b = List.range' 0 a ++ List.range' a (b - a) := by
  rw [← Nat.add_sub_cancel' h, ← List.range'_append_1, Nat.zero_add, Nat.add_sub_cancel_left]

/-- The numbers below `c` from `a` up to but excluding `b`, in their order. -/
theorem filter_range_between {a b c : Nat} (hab : a ≤ b) (hbc : b ≤ c) :
    (List.range c).filter (fun k => a ≤ k ∧ k < b) = List.range' a (b - a) := by
  have hsplit : List.range c = List.range' 0 a ++ List.range' a (b - a) ++ List.range' b (c - b) := by
    rw [List.range_eq_range', range'_append_of_le hbc, range'_append_of_le hab]
  have hlow : (List.range' 0 a).filter (fun k => a ≤ k ∧ k < b) = [] := by
    simp only [List.filter_eq_nil_iff, List.mem_range'_1, decide_eq_true_eq]; omega
  have hmid : (List.range' a (b - a)).filter (fun k => a ≤ k ∧ k < b) = List.range' a (b - a) := by
    simp only [List.filter_eq_self, List.mem_range'_1, decide_eq_true_eq]; omega
  have hhigh : (List.range' b (c - b)).filter (fun k => a ≤ k ∧ k < b) = [] := by
    simp only [List.filter_eq_nil_iff, List.mem_range'_1, decide_eq_true_eq]; omega
  rw [hsplit, List.filter_append, List.filter_append, hlow, hmid, hhigh, List.nil_append, List.append_nil]

/-- The cell of an address below 256 is read at the Value with that magnitude. -/
theorem read_eq_memRead (m : Memory) {k : Nat} (h : k < 256) : m.read k = memRead m (.plus (BitVec.ofNat 8 k)) := by
  have e : (BitVec.ofNat 8 k).toNat = k := Nat.mod_eq_of_lt h
  rw [memRead, e]

/-- Settles O51: the addresses from the first up to but excluding the last, each with its line. -/
theorem dumpText : Obligations.DumpText := by
  intro s m n printable hmn
  have haddresses : dumpAddresses (.plus m) (.plus n) =
      (List.range 256).filter (fun k => m.toNat ≤ k ∧ k < n.toNat) :=
    (filter_range_between hmn n.isLt.le).symm
  rw [transact, transactBy, hDump_accepted printable s ⟨rfl, rfl, hmn⟩, haddresses]
  congr 4
  refine List.map_congr_left fun k hk => ?_
  have hk256 : k < 256 := List.mem_range.mp (List.mem_filter.mp hk).1
  rw [dumpLine, read_eq_memRead s.mem hk256, List.append_assoc (hex _) [' ']]
  rfl

end Sys2Proof.Machine
